-- ==== Sys2Proof/Word.lean ====
section
/-! DEFINITION. The word and byte types of the SHA-512 hash core (spec/00_scope.md R6, R7).
Words are unsigned; there is no signed arithmetic anywhere in this hardware (R6). -/

namespace Sys2Proof

/-- R6: a word is a 64-bit unsigned integer; bit 0 is the least significant bit. -/
abbrev Word := BitVec 64

/-- R7: a byte is 8 bits. -/
abbrev Byte := BitVec 8

end Sys2Proof
end

