-- ==== Sys2Proof/Config.lean ====
section
/-! DEFINITION. The sizes that INFO exposes (R5, R28), the parameters it leaves OPEN (a Platform record, which State holds), and the
free values: opaque constants without a body for the values the spec leaves unspecified. -/

namespace Sys2Proof

namespace Config

/-- R2, R5: bytes in one block. -/
def blockSize : Nat := 128

/-- R2, R5: bytes in one digest. -/
def hashSize : Nat := 64

/-- R5: bits in one digest. -/
def hashSizeBits : Nat := 512

/-- R5: the default of the OPEN parameter ADDR_WIDTH. -/
def defaultAddrWidth : Nat := 64

/-- A FREE VALUE: the word that draw number `draw` gives in slot `slot`. No body: nothing in Lean knows a value of it.
Used for the STATUS fields read while BUSY = 1 (R24, I7) and for the compression datapath between commands (R39, I12). -/
opaque freeWord : Nat → Nat → Word

/-- A FREE VALUE: the byte that draw number `draw` gives in slot `slot`. No body.
Used for a HOST read of a running command's output byte (R301(b), I8), and for the output bytes of a command that a
power-on reset cuts short (assumption 13). -/
opaque freeByte : Nat → Nat → Byte

end Config

/-- R64, R68: what kind of host memory a platform region is. -/
inductive RegionKind where
  /-- R68: ordinary memory: idempotent, no side effects, holding what was last written. -/
  | ordinary
  /-- R68: memory with side effects (device registers, FIFOs); the spec defines no outcome of a command on it. -/
  | sideEffects
deriving DecidableEq, Repr

/-- One region of host memory that the platform admits: the bytes at addresses `base` to `base + size - 1`. -/
structure Region where
  base : Nat
  size : Nat
  kind : RegionKind
deriving DecidableEq, Repr

/-- The platform's parameters that the spec leaves OPEN (R5): ADDR_WIDTH, REG_BASE and MEM_ADMIT. A byte address is
admitted when some region holds it (R64); the first region that holds it says whether it is ordinary memory (R68).
Every predicate on a finite address space is such a list, so no platform is left out. The record is held in State as
plain data and no step changes it, so a statement about every state is a statement about every platform. -/
structure Platform where
  addrWidth : Nat
  regBase   : Nat
  regions   : List Region
deriving DecidableEq, Repr

/-- DESIGN CHOICE (assumption 2): the platform State.reset stands on: ADDR_WIDTH at its default 64 (R5), REG_BASE 0, and
every address of host memory admitted as ordinary memory. -/
def Platform.default : Platform :=
  { addrWidth := Config.defaultAddrWidth, regBase := 0, regions := [⟨0, 2 ^ 64, .ordinary⟩] }

end Sys2Proof
end

