-- ==== Sys2Proof/Syntax.lean ====
section
/-! DEFINITION. The commands (the rows of spec/opcode_table.json), the command word's fields, the registers of the window,
the actions of the outside world (HOST and the reset input), and HOST's pseudo-instructions. -/

namespace Sys2Proof

/-- R93: the four commands. No command carries an immediate (R92): a command's operands are ARG register values. -/
inductive Instr where
  /-- R120. -/
  | reset
  /-- R130. -/
  | input
  /-- R141. -/
  | result
  /-- R210. -/
  | hmac
deriving DecidableEq, Repr

/-- R91: the two fields of the one command format CMD64. -/
structure Cmd64 where
  /-- Bits 63:8, reserved, must be 0. -/
  rsvd : BitVec 56
  /-- Bits 7:0, the opcode. -/
  opc  : BitVec 8
deriving DecidableEq, Repr

/-- R94: why a command word is illegal. Both raise ILLEGAL_COMMAND. -/
inductive DecodeReject where
  /-- RSVD is not 0. -/
  | reservedBits
  /-- OPC is 0x00 or 0x05 to 0xFF (R93). -/
  | unassignedOpcode
deriving DecidableEq, Repr

/-- What the decoder answers: the decoder is total (R94). -/
inductive DecodeResult where
  | instr (i : Instr)
  | illegal (why : DecodeReject)
deriving DecidableEq, Repr

/-- R240: the outcome codes of a command. -/
inductive Err where
  | ok
  | illegalCommand
  | invalidArgument
  | alreadyFinalized
  | corrupted
deriving DecidableEq, Repr

/-- R20: the eight registers of the window. -/
inductive Reg where
  | cmd
  | arg0
  | arg1
  | arg2
  | arg3
  | arg4
  | status
  | info
deriving DecidableEq, Repr

/-- R9: the two agents. -/
inductive Agent where
  | host
  | core
deriving DecidableEq, Repr

/-- One action of the outside world. The state holds the actions still to come as a list (assumption 3).
Addresses of register accesses are platform addresses (R20: the window lies at REG_BASE); widths are in bytes. -/
inductive ExternalEvent where
  /-- R97 WR: HOST writes `value` to a register of the window. -/
  | regWrite (addr width : Nat) (value : Word)
  /-- R97 RD: HOST reads a register of the window. -/
  | regRead (addr width : Nat)
  /-- R97 POLL: HOST reads STATUS again and again until bit 0 (BUSY) reads 0. -/
  | poll
  /-- R9: HOST, which owns host memory, writes one byte of it. -/
  | memWrite (addr : Nat) (value : Byte)
  /-- R9: HOST reads one byte of host memory. -/
  | memRead (addr : Nat)
  /-- R280: the block's reset input. -/
  | powerOnReset
deriving DecidableEq, Repr

/-- R98: the pseudo-instructions of HOST programs. -/
inductive Pseudo where
  | reset
  | input (src len : Word)
  | result (dst : Word)
  | hmac (base blen key klen out : Word)
  | hash (src len dst : Word)
deriving DecidableEq, Repr

end Sys2Proof
end

