-- ==== Sys2Proof/WellFormed.lean ====
section
/-! DEFINITION. Well-formedness: of a command word's fields, of the platform's parameters, of the external events whose
behaviour the spec defines, and of the commands themselves. -/

namespace Sys2Proof

/-- R92: no command carries an immediate, a register number or any other field, so every command is well formed. -/
def Instr.wellFormed (i : Instr) : Bool :=
  match i with
  | .reset => true
  | .input => true
  | .result => true
  | .hmac => true

/-- R91, R93: a legal command word has RSVD = 0 and an assigned OPC, 0x01 to 0x04. -/
def Cmd64.wellFormed (c : Cmd64) : Bool :=
  decide (c.rsvd = 0) && decide (1 ≤ c.opc.toNat) && decide (c.opc.toNat ≤ 4)

/-- R5: 1 ≤ ADDR_WIDTH ≤ 64. -/
def Platform.wellFormed (p : Platform) : Bool :=
  decide (1 ≤ p.addrWidth) && decide (p.addrWidth ≤ 64)

/-- R29, R60: an event whose behaviour the spec defines: a 64-bit register access at an offset that is a multiple of 8 in
0x00 to 0x38 from REG_BASE, or an access to an address of host memory. -/
def ExternalEvent.wellFormed (p : Platform) (e : ExternalEvent) : Bool :=
  let window (addr width : Nat) : Bool :=
    decide (width = 8) && decide (p.regBase ≤ addr) && decide ((addr - p.regBase) % 8 = 0)
      && decide (addr - p.regBase ≤ 0x38)
  match e with
  | .regWrite addr width _ => window addr width
  | .regRead addr width => window addr width
  | .poll => true
  | .memWrite addr _ => decide (addr < 2 ^ p.addrWidth)
  | .memRead addr => decide (addr < 2 ^ p.addrWidth)
  | .powerOnReset => true

end Sys2Proof
end

