-- ==== Sys2Proof/Decode.lean ====
section
/-! DEFINITION. Decoding of the command word (R91 to R95) and of register accesses (R20, R29); after it the encoder, written
from the same tables; then the pseudo-instructions' expansions (R98). -/

namespace Sys2Proof

/-- R91: OPC is bits 7:0 and RSVD is bits 63:8 of the command word. -/
def fieldsOfWord (w : Word) : Cmd64 :=
  { rsvd := w.extractLsb' 8 56, opc := w.extractLsb' 0 8 }

/-- R93: the opcode map. -/
def decodeOpcode (opc : BitVec 8) : DecodeResult :=
  if opc = 0x01#8 then .instr .reset
  else if opc = 0x02#8 then .instr .input
  else if opc = 0x03#8 then .instr .result
  else if opc = 0x04#8 then .instr .hmac
  else .illegal .unassignedOpcode

/-- R94: decoding, total on every 64-bit value. -/
def decode (w : Word) : DecodeResult :=
  let c := fieldsOfWord w
  if c.rsvd ≠ 0 then .illegal .reservedBits else decodeOpcode c.opc

/-- The host's table word: bits above `nbits` are 0; a value of more than 64 bits is no command word (R91). -/
def decodeTableWord (nbits w : Nat) : Option Instr :=
  if w % 2 ^ nbits < 2 ^ 64 then
    match decode (BitVec.ofNat 64 (w % 2 ^ nbits)) with
    | .instr i => some i
    | .illegal _ => none
  else none

/-- R20: a register's offset in the window. -/
def Reg.offset (r : Reg) : Nat :=
  match r with
  | .cmd => 0x00
  | .arg0 => 0x08
  | .arg1 => 0x10
  | .arg2 => 0x18
  | .arg3 => 0x20
  | .arg4 => 0x28
  | .status => 0x30
  | .info => 0x38

/-- R20: the register at an offset of the window. -/
def regAtOffset (off : Nat) : Option Reg :=
  if off = 0x00 then some .cmd
  else if off = 0x08 then some .arg0
  else if off = 0x10 then some .arg1
  else if off = 0x18 then some .arg2
  else if off = 0x20 then some .arg3
  else if off = 0x28 then some .arg4
  else if off = 0x30 then some .status
  else if off = 0x38 then some .info
  else none

/-- R29: the register that an access of `width` bytes at platform address `addr` names; none when the access is of another
width, misaligned, or outside offsets 0x00 to 0x38. -/
def regAccessed (p : Platform) (addr width : Nat) : Option Reg :=
  if width = 8 ∧ p.regBase ≤ addr then regAtOffset (addr - p.regBase) else none

/-- R20: a register's platform address. -/
def Platform.regAddr (p : Platform) (r : Reg) : Nat :=
  p.regBase + r.offset

/-- R93: a command's opcode. -/
def Instr.opcode (i : Instr) : BitVec 8 :=
  match i with
  | .reset => 0x01#8
  | .input => 0x02#8
  | .result => 0x03#8
  | .hmac => 0x04#8

/-- R91: the word whose fields are `c`. -/
def wordOfFields (c : Cmd64) : Word :=
  c.rsvd ++ c.opc

/-- R91, R93: the one word of a command. -/
def encode (i : Instr) : Word :=
  wordOfFields { rsvd := 0, opc := i.opcode }

/-- R97: the external event of the line `WR r, v`. -/
def wrLine (p : Platform) (r : Reg) (v : Word) : ExternalEvent :=
  .regWrite (p.regAddr r) 8 v

/-- R97: the external event of the line `RD r`. -/
def rdLine (p : Platform) (r : Reg) : ExternalEvent :=
  .regRead (p.regAddr r) 8

/-- R98: the expansion of `RESET`. -/
def expandReset (p : Platform) : List ExternalEvent :=
  [wrLine p .cmd 0x1, .poll]

/-- R98: the expansion of `INPUT src, len`. -/
def expandInput (p : Platform) (src len : Word) : List ExternalEvent :=
  [wrLine p .arg0 src, wrLine p .arg1 len, wrLine p .cmd 0x2, .poll]

/-- R98: the expansion of `RESULT dst`. -/
def expandResult (p : Platform) (dst : Word) : List ExternalEvent :=
  [wrLine p .arg0 dst, wrLine p .cmd 0x3, .poll]

/-- R98: the expansion of `HMAC base, blen, key, klen, out`. -/
def expandHmac (p : Platform) (base blen key klen out : Word) : List ExternalEvent :=
  [wrLine p .arg0 base, wrLine p .arg1 blen, wrLine p .arg2 key, wrLine p .arg3 klen, wrLine p .arg4 out,
    wrLine p .cmd 0x4, .poll]

/-- R98: the expansion of a pseudo-instruction; HASH is RESET, INPUT, RESULT on the streaming engine. -/
def Pseudo.expand (p : Platform) (q : Pseudo) : List ExternalEvent :=
  match q with
  | .reset => expandReset p
  | .input src len => expandInput p src len
  | .result dst => expandResult p dst
  | .hmac base blen key klen out => expandHmac p base blen key klen out
  | .hash src len dst => expandReset p ++ expandInput p src len ++ expandResult p dst

end Sys2Proof
end

