-- ==== Sys2Proof/Machine/State.lean ====
section
/-! DEFINITION. The state of one instance of the block, with host memory and the outside world's pending actions: plain
data throughout. Reset values are R280's. -/

namespace Sys2Proof.Machine

/-- R60(a): host memory, as the list of the bytes that differ from `unlistedByte`, addresses strictly rising. -/
structure Memory where
  cells : List Host.Cell
deriving DecidableEq, Repr

/-- R31 to R37: the state of a hash engine. The streaming engine is one of these; HMAC's private engines are others. -/
structure Engine where
  /-- R31: the digest H[0..7]. -/
  h     : Vector Word 8
  /-- R33: the byte buffer BUF[0..255]. -/
  buf   : Vector Byte 256
  /-- R34: BLEN, the count of buffered bytes. The spec fixes no width (at least 8 bits). -/
  blen  : Nat
  /-- R35: TOTAL, the 128-bit count of compressed bytes. -/
  total : BitVec 128
  /-- R36: FIN. -/
  fin   : Bool
  /-- R37: COR. -/
  cor   : Bool
deriving DecidableEq, Repr

/-- R32 to R37, R120, R280: the engine after power-on reset and after the RESET command. -/
def Engine.init : Engine :=
  { h := iv, buf := Vector.replicate 256 0, blen := 0, total := 0, fin := false, cor := false }

/-- R39: the compression datapath: the schedule W, the working variables, the round temporaries, the round index and the
block index. Transient: nothing of it can be observed (R40), and nothing reads it before writing it. -/
structure Datapath where
  w : Vector Word 80
  (a b c d e f g h : Word)
  t1 : Word
  t2 : Word
  t  : Fin 80
  j  : Nat
deriving DecidableEq, Repr

/-- R39, R280: the spec calls the datapath's reset value unspecified. DESIGN CHOICE (assumption 5): all zero. -/
def Datapath.zero : Datapath :=
  { w := Vector.replicate 80 0, a := 0, b := 0, c := 0, d := 0, e := 0, f := 0, g := 0, h := 0,
    t1 := 0, t2 := 0, t := 0, j := 0 }

/-- R22: the operand registers ARG0 to ARG4; also the operands latched from them (R90). -/
structure Args where
  arg0 : Word
  arg1 : Word
  arg2 : Word
  arg3 : Word
  arg4 : Word
deriving DecidableEq, Repr

/-- R90: an accepted command that has not completed: its command word and its latched operands. -/
structure Running where
  word : Word
  ops  : Args
deriving DecidableEq, Repr

/-- What one HOST read returned. -/
inductive Observation where
  | reg (r : Reg) (value : Word)
  | mem (addr : Nat) (value : Byte)
deriving DecidableEq, Repr

/-- R64, R247: the outcomes outside the error codes that the spec calls a model fault. All are safe: the model stops where
the hardware goes on in a way the spec does not define. -/
inductive Fault where
  /-- R64, R247: a command or a HOST access reaches a byte of host memory that the platform does not admit. Safe. -/
  | memoryNotAdmitted
  /-- R60: a HOST access to an address at or beyond 2^ADDR_WIDTH, which host memory does not have. Safe. -/
  | noSuchAddress
  /-- R247, R300: HOST writes a register of the window while BUSY = 1. Safe (the hardware discards the write). -/
  | busyRegisterWrite
  /-- R247, R301(a): HOST writes a byte of a memory range that the running command uses. Safe. -/
  | busyMemoryWrite
  /-- R38, R247: a state that breaks an invariant of R38. Safe. -/
  | invariantBroken
deriving DecidableEq, Repr

/-- R29, R68, R247: the outcomes outside the error codes that the spec says a model refuses. All are safe. -/
inductive Refusal where
  /-- An instruction without a meaning, by its mnemonic. No arm of exec raises it. Safe. -/
  | notModelled (mnemonic : String)
  /-- R29: a HOST access to the window of another width, misaligned, or outside offsets 0x00 to 0x38. Safe. -/
  | oddRegisterAccess
  /-- R68: an access to host memory with side effects. Safe. -/
  | sideEffectMemory
deriving DecidableEq, Repr

/-- The whole state. -/
structure State where
  /-- R5: the platform's parameters; no step changes them. -/
  platform : Platform
  /-- R22: ARG0 to ARG4. -/
  args     : Args
  /-- R27: STATUS.ERR, bits 15:8 of STATUS. -/
  err      : Byte
  /-- R24, R90: the accepted command that has not completed; STATUS.BUSY is 1 exactly while there is one. -/
  running  : Option Running
  /-- R31 to R37: the streaming engine. STATUS.FINALIZED and STATUS.CORRUPTED are its FIN and COR (R25, R26). -/
  engine   : Engine
  /-- R39: the compression datapath; any value between commands (I12). -/
  datapath : Datapath
  /-- R60(a): host memory. -/
  mem      : Memory
  /-- The model's own: the outside world's actions still to come, first one first (assumption 3). -/
  events   : List ExternalEvent
  /-- The model's own: which agent takes each of the next steps; when empty, CORE while a command runs, else HOST
  (assumption 3). -/
  turns    : List Agent
  /-- The model's own: what HOST's reads have returned, the latest first. -/
  observed : List Observation
  /-- The model's own: how many free values have been drawn. -/
  draws    : Nat
deriving DecidableEq, Repr

/-- R280: the state after power-on reset, with nothing pending outside. -/
def State.reset : State :=
  { platform := Platform.default
    args := { arg0 := 0, arg1 := 0, arg2 := 0, arg3 := 0, arg4 := 0 }
    err := 0
    running := none
    engine := Engine.init
    datapath := Datapath.zero
    mem := { cells := [] }
    events := []
    turns := []
    observed := []
    draws := 0 }

/-- The three outcomes of a step of this machine. -/
abbrev StepResult := Host.Outcome State Fault Refusal

end Sys2Proof.Machine
end

