-- ==== Sys2Proof/Machine/Operands.lean ====
section
/-! DEFINITION. Byte order (R7, R62), operand ranges in host memory (R61, R65) and the operands of each command (R92). -/

namespace Sys2Proof.Machine

/-- R7: BE_n(v), the n-byte big-endian encoding of v mod 2^(8n), the most significant byte first. -/
def beBytes : Nat → Nat → List Byte
  | 0, _ => []
  | n + 1, v => BitVec.ofNat 8 (v / 256 ^ n) :: beBytes n v

/-- R7: BEword(s), the 64-bit word whose big-endian encoding is the 8-byte sequence s. -/
def beWord (s : List Byte) : Word :=
  BitVec.ofNat 64 (s.foldl (fun acc b => acc * 256 + b.toNat) 0)

/-- R61: a host-memory operand: the bytes at addresses `base` to `base + len - 1`. -/
structure Range where
  base : Nat
  len  : Nat
deriving DecidableEq, Repr

/-- R61: a range from the two register values that name it, not scaled, not offset and not masked. -/
def rangeOf (base len : Word) : Range :=
  { base := base.toNat, len := len.toNat }

/-- R2, R92: the range of a 64-byte output. -/
def outRange (base : Word) : Range :=
  { base := base.toNat, len := 64 }

/-- R61: whether an address is one of the range's bytes. -/
def Range.holds (r : Range) (a : Nat) : Bool :=
  decide (r.base ≤ a) && decide (a < r.base + r.len)

/-- R65, R66: whether the range is representable: it is empty, or it does not pass the top of host memory. -/
def Range.representable (p : Platform) (r : Range) : Bool :=
  decide (r.len = 0) || decide (r.base + r.len ≤ 2 ^ p.addrWidth)

/-- R90: the operands of the command: those latched when it was accepted. Where no command is running, the live ARG
registers, which R90 says give the same (assumption 6). -/
def State.operands (s : State) : Args :=
  match s.running with
  | some r => r.ops
  | none => s.args

/-- R92, R130: INPUT's source range. -/
def Args.inputRange (op : Args) : Range :=
  rangeOf op.arg0 op.arg1

/-- R92, R141: RESULT's output range. -/
def Args.resultRange (op : Args) : Range :=
  outRange op.arg0

/-- R92, R210: HMAC's message range. -/
def Args.messageRange (op : Args) : Range :=
  rangeOf op.arg0 op.arg1

/-- R92, R210: HMAC's key range. -/
def Args.keyRange (op : Args) : Range :=
  rangeOf op.arg2 op.arg3

/-- R92, R210: HMAC's output range. -/
def Args.hmacRange (op : Args) : Range :=
  outRange op.arg4

/-- R60(a), R301(a): the ranges a command reads. -/
def readRanges (i : Instr) (op : Args) : List Range :=
  match i with
  | .reset => []
  | .input => [op.inputRange]
  | .result => []
  | .hmac => [op.messageRange, op.keyRange]

/-- R60(a), R301(b): the ranges a command writes. -/
def writeRanges (i : Instr) (op : Args) : List Range :=
  match i with
  | .reset => []
  | .input => []
  | .result => [op.resultRange]
  | .hmac => [op.hmacRange]

/-- R301: the ranges that the running command reads. -/
def State.runningReads (s : State) : List Range :=
  match s.running with
  | none => []
  | some r =>
    match decode r.word with
    | .instr i => readRanges i r.ops
    | .illegal _ => []

/-- R301: the ranges that the running command writes. -/
def State.runningWrites (s : State) : List Range :=
  match s.running with
  | none => []
  | some r =>
    match decode r.word with
    | .instr i => writeRanges i r.ops
    | .illegal _ => []

end Sys2Proof.Machine
end

