-- ==== Sys2Proof/Machine/Compression.lean ====
section
/-! DEFINITION. The compression core (spec/41_compression.md): a pure function of a digest and whole blocks (R187). -/

namespace Sys2Proof.Machine

/-- R170: ROTR(n, x), for 0 < n < 64. -/
def rotr (n : Nat) (x : Word) : Word :=
  (x >>> n) ||| (x <<< (64 - n))

/-- R171: SHR(n, x). -/
def shr (n : Nat) (x : Word) : Word :=
  x >>> n

/-- R172: small sigma 0. -/
def smallSigma0 (x : Word) : Word :=
  rotr 1 x ^^^ rotr 8 x ^^^ shr 7 x

/-- R173: small sigma 1. -/
def smallSigma1 (x : Word) : Word :=
  rotr 19 x ^^^ rotr 61 x ^^^ shr 6 x

/-- R174: capital Sigma 0. -/
def bigSigma0 (x : Word) : Word :=
  rotr 28 x ^^^ rotr 34 x ^^^ rotr 39 x

/-- R175: capital Sigma 1. -/
def bigSigma1 (x : Word) : Word :=
  rotr 14 x ^^^ rotr 18 x ^^^ rotr 41 x

/-- R176: choice. -/
def ch (e f g : Word) : Word :=
  (e &&& f) ^^^ (~~~e &&& g)

/-- R177: majority. -/
def maj (a b c : Word) : Word :=
  (a &&& b) ^^^ (a &&& c) ^^^ (b &&& c)

/-- R181: the big-endian words of the first n 8-byte groups. -/
def unpackWords : Nat → List Byte → List Word
  | 0, _ => []
  | n + 1, bs => beWord (bs.take 8) :: unpackWords n (bs.drop 8)

/-- R182: W[i] from the words W[0..i-1]; additions are modulo 2^64 (R178). -/
def nextScheduleWord (ws : List Word) : Word :=
  smallSigma1 (ws.getD (ws.length - 2) 0) + ws.getD (ws.length - 7) 0
    + smallSigma0 (ws.getD (ws.length - 15) 0) + ws.getD (ws.length - 16) 0

/-- R182: the schedule longer by n words. -/
def extendSchedule : Nat → List Word → List Word
  | 0, ws => ws
  | n + 1, ws => extendSchedule n (ws ++ [nextScheduleWord ws])

/-- R181, R182: the message schedule W[0..79] of one 128-byte block. -/
def schedule (block : List Byte) : List Word :=
  extendSchedule 64 (unpackWords 16 block)

/-- R39: the working variables. -/
structure WorkVars where
  a : Word
  b : Word
  c : Word
  d : Word
  e : Word
  f : Word
  g : Word
  h : Word
deriving DecidableEq, Repr

/-- R184: one round, with round constant k and schedule word w; every right-hand side reads the values from before. -/
def compressionRound (k w : Word) (v : WorkVars) : WorkVars :=
  let t1 := v.h + bigSigma1 v.e + ch v.e v.f v.g + k + w
  let t2 := bigSigma0 v.a + maj v.a v.b v.c
  { h := v.g, g := v.f, f := v.e, e := v.d + t1, d := v.c, c := v.b, b := v.a, a := t1 + t2 }

/-- R184: the rounds for the constants and schedule words given, in increasing order of t. -/
def compressionRounds : List Word → List Word → WorkVars → WorkVars
  | k :: ks, w :: ws, v => compressionRounds ks ws (compressionRound k w v)
  | _, _, v => v

/-- R183: the working variables before round 0. -/
def initialVars (h : Vector Word 8) : WorkVars :=
  { h := h[7], g := h[6], f := h[5], e := h[4], d := h[3], c := h[2], b := h[1], a := h[0] }

/-- R185: the working variables in order, v = (a, b, c, d, e, f, g, h). -/
def WorkVars.toList (v : WorkVars) : List Word :=
  [v.a, v.b, v.c, v.d, v.e, v.f, v.g, v.h]

/-- R185: feed-forward: H[i] +64 v[i], for i from 0 to 7. -/
def feedForward (h : Vector Word 8) (v : WorkVars) : Vector Word 8 :=
  ⟨(List.zipWith (· + ·) h.toList v.toList).toArray, by simp [WorkVars.toList]⟩

/-- R186: one block: schedule, 80 rounds, feed-forward. -/
def compressBlock (h : Vector Word 8) (block : List Byte) : Vector Word 8 :=
  feedForward h (compressionRounds roundConstants (schedule block) (initialVars h))

/-- R186: Compress(H, data, n): the n blocks of `data` in sequence. -/
def compress (h : Vector Word 8) (data : List Byte) : Nat → Vector Word 8
  | 0 => h
  | n + 1 => compress (compressBlock h (data.take 128)) (data.drop 128) n

end Sys2Proof.Machine
end

