-- ==== Sys2Proof/Machine/Flags.lean ====
section
/-! DEFINITION. The STATUS and INFO registers (R23 to R28), the error codes (R240) and the engine's invariants (R38).
The block has no condition codes, and no arithmetic sets a flag (R42, R178). -/

namespace Sys2Proof.Machine

/-- R240: the error codes. -/
def errCode (e : Err) : Byte :=
  match e with
  | .ok => 0x00
  | .illegalCommand => 0x01
  | .invalidArgument => 0x02
  | .alreadyFinalized => 0x03
  | .corrupted => 0x04

/-- R23: STATUS = BUSY | (FIN << 1) | (COR << 2) | (ERR << 8). -/
def statusWord (busy fin cor : Bool) (err : Byte) : Word :=
  (BitVec.ofBool busy).setWidth 64 ||| ((BitVec.ofBool fin).setWidth 64 <<< 1)
    ||| ((BitVec.ofBool cor).setWidth 64 <<< 2) ||| (err.setWidth 64 <<< 8)

/-- R24: STATUS.BUSY. -/
def State.busy (s : State) : Bool :=
  s.running.isSome

/-- R23: the STATUS register. While BUSY = 1 a read of it gives `busyStatus`, not this (R24). -/
def State.status (s : State) : Word :=
  statusWord s.busy s.engine.fin s.engine.cor s.err

/-- R24, R23, I7: what STATUS reads as while BUSY = 1: bit 0 is 1, the reserved bits are 0, and FINALIZED, CORRUPTED and ERR
are a free value, drawn anew at each read. -/
def busyStatus (draw : Nat) : Word :=
  0x1 ||| (Config.freeWord draw 0 &&& 0xFF06)

/-- R28: INFO, a constant: BLOCK_SIZE in bits 15:0, HASH_SIZE in bits 31:16, HASH_SIZE_BITS in bits 47:32. -/
def infoWord : Word :=
  BitVec.ofNat 64 Config.blockSize ||| (BitVec.ofNat 64 Config.hashSize <<< 16)
    ||| (BitVec.ofNat 64 Config.hashSizeBits <<< 32)

/-- R38: the invariants of an engine: BLEN < 128, TOTAL a multiple of 128, and COR = 1 only when FIN = 1. That H has eight
words is in its type. -/
def Engine.sound (e : Engine) : Bool :=
  decide (e.blen < 128) && decide (e.total.toNat % 128 = 0) && (!e.cor || e.fin)

end Sys2Proof.Machine
end

