-- ==== Sys2Proof/Machine/Ops.lean ====
section
/-! DEFINITION. The shared operations: host memory, the admission of accesses (R64, R68), completing a command and raising an
error (R90, R241), and power-on reset (R280). -/

namespace Sys2Proof.Machine

/-- What an address of host memory that nothing has written reads as. The spec gives none. DESIGN CHOICE (assumption 1). -/
def unlistedByte : Byte := 0x00

/-- The byte listed for address `a`, or `unlistedByte`. -/
def lookupCell (a : Nat) : List Host.Cell → Byte
  | [] => unlistedByte
  | (k, b) :: rest => if a = k then b else lookupCell a rest

/-- The canonical list in which address `a` reads as `b`. -/
def storeCell (a : Nat) (b : Byte) : List Host.Cell → List Host.Cell
  | [] => if b = unlistedByte then [] else [(a, b)]
  | (k, c) :: rest =>
    if a < k then (if b = unlistedByte then (k, c) :: rest else (a, b) :: (k, c) :: rest)
    else if a = k then (if b = unlistedByte then rest else (a, b) :: rest)
    else (k, c) :: storeCell a b rest

/-- Whether the addresses rise strictly from `lo` on and no entry equals what an unlisted address reads as. -/
def canonicalFrom (lo : Nat) : List Host.Cell → Bool
  | [] => true
  | (k, b) :: rest => decide (lo ≤ k) && decide (b ≠ unlistedByte) && canonicalFrom (k + 1) rest

/-- The canonical form of host memory: equal memories are equal data. -/
def Memory.wf (m : Memory) : Bool :=
  canonicalFrom 0 m.cells

/-- R67: one byte access, a read. -/
def Memory.read (m : Memory) (a : Nat) : Byte :=
  lookupCell a m.cells

/-- R67: one byte access, a write. -/
def Memory.write (m : Memory) (a : Nat) (b : Byte) : Memory :=
  { cells := storeCell a b m.cells }

/-- R8: MemRead(a, n): the n bytes from a on, in ascending address order. -/
def Memory.readBytes (m : Memory) (a : Nat) : Nat → List Byte
  | 0 => []
  | n + 1 => m.read a :: m.readBytes (a + 1) n

/-- R8: MemWrite(a, len s, s): the bytes of s from a on, in ascending address order. -/
def Memory.writeBytes (m : Memory) (a : Nat) : List Byte → Memory
  | [] => m
  | b :: rest => (m.write a b).writeBytes (a + 1) rest

/-- The bytes an operand range names, in message order (R62(a)). -/
def Memory.readRange (m : Memory) (r : Range) : List Byte :=
  m.readBytes r.base r.len

/-- R64, R68: the kind of memory at an address; none when the platform does not admit it. -/
def regionKindAt (a : Nat) : List Region → Option RegionKind
  | [] => none
  | r :: rest => if r.base ≤ a ∧ a < r.base + r.size then some r.kind else regionKindAt a rest

/-- R64: MEM_ADMIT(a). -/
def memAdmit (p : Platform) (a : Nat) : Bool :=
  (regionKindAt a p.regions).isSome

/-- R68: whether `a` is admitted and is ordinary memory. -/
def memOrdinary (p : Platform) (a : Nat) : Bool :=
  decide (regionKindAt a p.regions = some .ordinary)

/-- R64: whether every byte of the n bytes from `a` on is admitted. -/
def memAdmitFrom (p : Platform) (a : Nat) : Nat → Bool
  | 0 => true
  | n + 1 => memAdmit p a && memAdmitFrom p (a + 1) n

/-- R68: whether every byte of the n bytes from `a` on is admitted ordinary memory. -/
def memOrdinaryFrom (p : Platform) (a : Nat) : Nat → Bool
  | 0 => true
  | n + 1 => memOrdinary p a && memOrdinaryFrom p (a + 1) n

/-- R64, R68: the outcome `k` of a command that accesses these ranges, if all their bytes are admitted ordinary memory.
A byte that is not admitted is a fault with no state committed; otherwise memory with side effects is refused. -/
def State.accessing (s : State) (ranges : List Range) (k : StepResult) : StepResult :=
  if ranges.all (fun r => memAdmitFrom s.platform r.base r.len) then
    if ranges.all (fun r => memOrdinaryFrom s.platform r.base r.len) then k
    else .refused .sideEffectMemory
  else .fault .memoryNotAdmitted

/-- R90: the one update that completes a command: STATUS.ERR takes the code and BUSY returns to 0. FINALIZED and CORRUPTED
are FIN and COR themselves. -/
def State.finish (s : State) (e : Err) : State :=
  { s with err := errCode e, running := none }

/-- R8, R241: `raise e`: the command ends at once with its code, and nothing else changes. This is all that taking an
exception is on this hardware: there is no trap entry, no saved state and no trap return (R246). -/
def State.raise (s : State) (e : Err) : StepResult :=
  .next (s.finish e)

/-- R8: `complete OK`. -/
def State.complete (s : State) : StepResult :=
  .next (s.finish .ok)

/-- R39, I12: a datapath of which every register is a free value. -/
def Datapath.draw (n : Nat) : Datapath :=
  { w := Vector.ofFn (fun i => Config.freeWord n i.val)
    a := Config.freeWord n 80, b := Config.freeWord n 81, c := Config.freeWord n 82, d := Config.freeWord n 83
    e := Config.freeWord n 84, f := Config.freeWord n 85, g := Config.freeWord n 86, h := Config.freeWord n 87
    t1 := Config.freeWord n 88, t2 := Config.freeWord n 89
    t := Fin.ofNat 80 (Config.freeWord n 90).toNat, j := (Config.freeWord n 91).toNat }

/-- R39, I12: after a command that ran `n` compressions, n > 0, the datapath holds any value (assumption 5). -/
def State.leaveDatapath (s : State) (n : Nat) : State :=
  if n = 0 then s else { s with datapath := Datapath.draw s.draws, draws := s.draws + 1 }

/-- R280: power-on reset of the block's own state: no command runs, ARG and ERR are 0 and the engine is as after RESET.
The datapath is unspecified. Host memory, the platform and the outside world's lists are no state of the block. -/
def State.poweredOn (s : State) : State :=
  { s with
    args := { arg0 := 0, arg1 := 0, arg2 := 0, arg3 := 0, arg4 := 0 }
    err := 0
    running := none
    engine := Engine.init
    datapath := Datapath.draw s.draws
    draws := s.draws + 1 }

/-- Free values for the `n` bytes of a range: slots `k` on of draw `draw`. -/
def freeBytes (draw : Nat) (k : Nat) : Nat → List Byte
  | 0 => []
  | n + 1 => Config.freeByte draw k :: freeBytes draw (k + 1) n

/-- Host memory after a power-on reset cut a command short: the bytes of the ranges it would have written are free values, since
the spec does not say whether its writes have landed (assumption 13). A range that is not representable is never written
(R65). -/
def cutShort (p : Platform) (draw : Nat) (m : Memory) : List Range → Memory
  | [] => m
  | r :: rest =>
    cutShort p draw (if r.representable p then m.writeBytes r.base (freeBytes draw 0 r.len) else m) rest

end Sys2Proof.Machine
end

