-- ==== Sys2Proof/Machine/Engine.lean ====
section
/-! DEFINITION. The hash engine (spec/40_engine.md): absorbing, finalizing and serialising, and the meanings of the commands
RESET, INPUT and RESULT. -/

namespace Sys2Proof.Machine

/-- R130: the loop body of INPUT, for one byte. -/
def Engine.absorbByte (e : Engine) (b : Byte) : Engine :=
  let buf := e.buf.setIfInBounds e.blen b
  if e.blen + 1 = 128 then
    { e with h := compress e.h (buf.toList.take 128) 1, buf := buf, blen := 0, total := e.total + 128 }
  else
    { e with buf := buf, blen := e.blen + 1 }

/-- R130, R131: the bytes absorbed one after the other, the first one first. -/
def Engine.absorb (e : Engine) : List Byte → Engine
  | [] => e
  | b :: rest => (e.absorbByte b).absorb rest

/-- R130: how many compressions absorbing n bytes makes. -/
def Engine.absorbBlocks (e : Engine) (n : Nat) : Nat :=
  (e.blen + n) / 128

/-- R140: the number of final blocks for a buffered length. -/
def finalBlocks (blen : Nat) : Nat :=
  if blen ≤ 111 then 1 else 2

/-- R140, R145: the message length in bits, mod 2^128. -/
def Engine.bitLength (e : Engine) : Nat :=
  (8 * (e.total.toNat + e.blen)) % 2 ^ 128

/-- R140: P, the padded tail: the buffered bytes, 0x80, zeros, and the 16-byte big-endian bit length. -/
def Engine.padded (e : Engine) : List Byte :=
  e.buf.toList.take e.blen ++ [0x80] ++ List.replicate (128 * finalBlocks e.blen - e.blen - 17) 0
    ++ beBytes 16 e.bitLength

/-- BUF with the bytes written from index i on. -/
def fillBuf (buf : Vector Byte 256) (i : Nat) : List Byte → Vector Byte 256
  | [] => buf
  | b :: rest => fillBuf (buf.setIfInBounds i b) (i + 1) rest

/-- R140: Finalize. BLEN and TOTAL keep their values. -/
def Engine.finalize (e : Engine) : Engine :=
  { e with
    buf := fillBuf e.buf 0 e.padded
    h := compress e.h e.padded (finalBlocks e.blen)
    fin := true }

/-- R142: Serialise(H): the words in order, each big-endian. -/
def serialise (h : Vector Word 8) : List Byte :=
  h.toList.flatMap (fun w => beBytes 8 w.toNat)

/-- R213: SHA512(s), what a fresh private engine gives. -/
def sha512 (s : List Byte) : List Byte :=
  serialise ((Engine.init.absorb s).finalize).h

/-- R120: RESET. -/
def execReset (s : State) : StepResult :=
  State.complete { s with engine := Engine.init }

/-- R130, R132: INPUT. -/
def execInput (s : State) : StepResult :=
  let op := s.operands
  if op.inputRange.representable s.platform = false then s.raise .invalidArgument
  else if s.engine.fin then State.raise { s with engine := { s.engine with cor := true } } .alreadyFinalized
  else
    s.accessing [op.inputRange]
      (State.complete
        ({ s with engine := s.engine.absorb (s.mem.readRange op.inputRange) }.leaveDatapath
          (s.engine.absorbBlocks op.inputRange.len)))

/-- R141, R143: RESULT. -/
def execResult (s : State) : StepResult :=
  let op := s.operands
  if op.resultRange.representable s.platform = false then s.raise .invalidArgument
  else if s.engine.cor then s.raise .corrupted
  else
    let e := if s.engine.fin then s.engine else s.engine.finalize
    s.accessing [op.resultRange]
      (State.complete
        ({ s with engine := e, mem := s.mem.writeBytes op.resultRange.base (serialise e.h) }.leaveDatapath
          (if s.engine.fin then 0 else finalBlocks s.engine.blen)))

end Sys2Proof.Machine
end

