-- ==== Sys2Proof/Machine/Hmac.lean ====
section
/-! DEFINITION. The HMAC wrapper (spec/42_hmac.md): the key block, the pads, the code, and the meaning of the command HMAC.
Its engines are private values of the computation, made by `sha512` and dropped with it (R41, R214). -/

namespace Sys2Proof.Machine

/-- R211: KeyBlock(Kraw), 128 bytes. -/
def keyBlock (key : List Byte) : List Byte :=
  let kb := if 128 < key.length then sha512 key else key
  kb ++ List.replicate (128 - kb.length) 0

/-- R212: the key block with every byte XORed with the constant. -/
def padWith (c : Byte) (k0 : List Byte) : List Byte :=
  k0.map (fun b => b ^^^ c)

/-- R213: HMAC(K, m) = SHA512(opad || SHA512(ipad || m)). -/
def hmacSha512 (key msg : List Byte) : List Byte :=
  sha512 (padWith 0x5c (keyBlock key) ++ sha512 (padWith 0x36 (keyBlock key) ++ msg))

/-- R210: HMAC. All reads come before any write (R73). -/
def execHmac (s : State) : StepResult :=
  let op := s.operands
  if op.messageRange.representable s.platform = false then s.raise .invalidArgument
  else if op.keyRange.representable s.platform = false then s.raise .invalidArgument
  else if op.hmacRange.representable s.platform = false then s.raise .invalidArgument
  else
    s.accessing [op.messageRange, op.keyRange, op.hmacRange]
      (State.complete
        ({ s with
            mem := s.mem.writeBytes op.hmacRange.base
              (hmacSha512 (s.mem.readRange op.keyRange) (s.mem.readRange op.messageRange)) }.leaveDatapath 1))

end Sys2Proof.Machine
end

