-- ==== Sys2Proof/Machine/Dispatch.lean ====
section
/-! DEFINITION. One arm per command. -/

namespace Sys2Proof.Machine

def exec (i : Instr) (s : State) : Host.Outcome State Fault Refusal :=
  match i with
  | .reset => Sys2Proof.Machine.execReset s
  | .input => Sys2Proof.Machine.execInput s
  | .result => Sys2Proof.Machine.execResult s
  | .hmac => Sys2Proof.Machine.execHmac s

end Sys2Proof.Machine
end

