-- ==== Sys2Proof/Machine/HostPort.lean ====
section
/-! DEFINITION. What the outside world can do to the block: HOST's register accesses (R20 to R29), its memory accesses
(R9, R301), POLL (R97), and power-on reset (R280). -/

namespace Sys2Proof.Machine

/-- R20 to R22, R90: a write of a register while BUSY = 0. CMD starts a command and latches its operands; STATUS and INFO
ignore writes. -/
def State.writeReg (s : State) (r : Reg) (v : Word) : State :=
  match r with
  | .cmd => { s with running := some { word := v, ops := s.args } }
  | .arg0 => { s with args := { s.args with arg0 := v } }
  | .arg1 => { s with args := { s.args with arg1 := v } }
  | .arg2 => { s with args := { s.args with arg2 := v } }
  | .arg3 => { s with args := { s.args with arg3 := v } }
  | .arg4 => { s with args := { s.args with arg4 := v } }
  | .status => s
  | .info => s

/-- R20 to R28: what a read of a register returns; STATUS while BUSY = 1 is a free value but for BUSY and the reserved
bits (R24). -/
def State.readReg (s : State) (r : Reg) : Word :=
  match r with
  | .cmd => 0
  | .arg0 => s.args.arg0
  | .arg1 => s.args.arg1
  | .arg2 => s.args.arg2
  | .arg3 => s.args.arg3
  | .arg4 => s.args.arg4
  | .status => if s.busy then busyStatus s.draws else s.status
  | .info => infoWord

/-- HOST's read of a register: the value returned is recorded, and a read of STATUS while BUSY = 1 uses up its draw.
Nothing else changes (R29). -/
def State.observeReg (s : State) (r : Reg) : State :=
  { s with
    observed := .reg r (s.readReg r) :: s.observed
    draws := if r = .status ∧ s.busy then s.draws + 1 else s.draws }

/-- R29, R300: HOST writes a register. -/
def hostRegWrite (s : State) (addr width : Nat) (v : Word) : StepResult :=
  match regAccessed s.platform addr width with
  | none => .refused .oddRegisterAccess
  | some r => if s.busy then .fault .busyRegisterWrite else .next (s.writeReg r v)

/-- R29: HOST reads a register. -/
def hostRegRead (s : State) (addr width : Nat) : StepResult :=
  match regAccessed s.platform addr width with
  | none => .refused .oddRegisterAccess
  | some r => .next (s.observeReg r)

/-- R97: one turn of POLL: STATUS is read, and the POLL stays HOST's next action while BUSY reads 1. -/
def hostPoll (s : State) : StepResult :=
  .next (if s.busy then { s.observeReg .status with events := .poll :: s.events } else s.observeReg .status)

/-- R60, R64, R68: the outcome `k` of a HOST access to the byte at `a` of host memory. -/
def State.hostAccess (s : State) (a : Nat) (k : StepResult) : StepResult :=
  if a < 2 ^ s.platform.addrWidth then s.accessing [{ base := a, len := 1 }] k else .fault .noSuchAddress

/-- R9, R247, R301: HOST writes a byte of host memory; not one of a range that the running command uses. A byte outside host
memory, not admitted or of memory with side effects stops as every HOST access to it does, also where the running command
uses it: which of R247's stops comes first is the model's choice (assumption 10). -/
def hostMemWrite (s : State) (a : Nat) (b : Byte) : StepResult :=
  s.hostAccess a
    (if (s.runningReads ++ s.runningWrites).any (fun r => r.holds a) then .fault .busyMemoryWrite
     else .next { s with mem := s.mem.write a b })

/-- R9, R301(b): HOST reads a byte of host memory; one in the running command's output range is a free value. -/
def hostMemRead (s : State) (a : Nat) : StepResult :=
  s.hostAccess a
    (if s.runningWrites.any (fun r => r.holds a) then
      .next { s with observed := .mem a (Config.freeByte s.draws 0) :: s.observed, draws := s.draws + 1 }
     else .next { s with observed := .mem a (s.mem.read a) :: s.observed })

/-- R141, R210: the ranges that the running command writes by taking its whole effect: none of an illegal word, of a command
that would raise an error (R241) or of one whose accesses have no outcome the spec defines (R64, R68). -/
def State.landing (s : State) : List Range :=
  match s.running with
  | none => []
  | some r =>
    match decode r.word with
    | .illegal _ => []
    | .instr i =>
      match exec i s with
      | .next t => if t.err = errCode .ok then writeRanges i r.ops else []
      | .fault _ => []
      | .refused _ => []

/-- R280: the reset input, which gives R280's state in every state. What becomes of a command that was running is the model's
choice (assumption 13): the bytes it would have written are free values, and it has no other effect; a byte that is not
admitted or has side effects, in any of its ranges, counts as not yet accessed, so the reset never stops. -/
def powerOn (s : State) : StepResult :=
  .next { s.poweredOn with mem := cutShort s.platform s.draws s.mem s.landing }

/-- One action of the outside world. -/
def externalEvent (s : State) (e : ExternalEvent) : StepResult :=
  match e with
  | .regWrite addr width v => hostRegWrite s addr width v
  | .regRead addr width => hostRegRead s addr width
  | .poll => hostPoll s
  | .memWrite a b => hostMemWrite s a b
  | .memRead a => hostMemRead s a
  | .powerOnReset => powerOn s

/-- The state with the outside world's next action used up; `rest` are the later ones. -/
def State.dropEvent (s : State) (rest : List ExternalEvent) : State :=
  { s with events := rest }

/-- HOST's turn: its next action, or nothing when it has none. -/
def hostStep (s : State) : StepResult :=
  match s.events with
  | [] => .next s
  | e :: rest => externalEvent (s.dropEvent rest) e

end Sys2Proof.Machine
end

