-- ==== Sys2Proof/Machine/Turn.lean ====
section
/-! DEFINITION. Whose turn a step is (assumption 3), CORE's turn (R90, R94), and how a command is put in place to run next. -/

namespace Sys2Proof.Machine

/-- Which agent takes the next step: the one `turns` names; with no turn named, CORE while a command runs, else HOST. -/
def State.nextAgent (s : State) : Agent :=
  match s.turns with
  | a :: _ => a
  | [] => if s.running.isSome then .core else .host

/-- The state with the turn used up. -/
def State.takeTurn (s : State) : State :=
  { s with turns := s.turns.tail }

/-- The state in which the command word `w` has just been accepted (R90) and CORE takes the next step. -/
def State.accepted (s : State) (w : Word) : State :=
  { s with running := some { word := w, ops := s.args }, turns := .core :: s.turns }

/-- R90, R94: CORE's turn: the accepted command is decoded and executed whole; with none, CORE is idle (R281). -/
def coreStep (s : State) : StepResult :=
  match s.running with
  | none => .next s
  | some r =>
    match decode r.word with
    | .instr i => exec i s
    | .illegal _ => s.raise .illegalCommand

/-- One turn of the agent whose turn it is; R38: a state that breaks an invariant faults. -/
def turn (s : State) : StepResult :=
  if s.engine.sound then
    match s.nextAgent with
    | .core => coreStep s.takeTurn
    | .host => hostStep s.takeTurn
  else .fault .invariantBroken

end Sys2Proof.Machine
end

