-- ==== Sys2Proof/Machine/Step.lean ====
section
/-! DEFINITION. The step: one turn of CORE or of the outside world. The block fetches nothing (R30, R76): a command comes by a
write of CMD, which HOST's turn makes, and CORE's turn runs it whole (R9, R71). -/

namespace Sys2Proof.Machine

def step (s : State) : Host.Outcome State Fault Refusal :=
  turn s

/-- The state in which the command word `w` (bits above `nbits` are 0) has been accepted and runs in the next step. -/
def State.withFetchWord (s : State) (nbits w : Nat) : State :=
  s.accepted (BitVec.ofNat 64 (w % 2 ^ nbits))

end Sys2Proof.Machine
end

