-- ==== Sys2Proof/Safety.lean ====
section
/-! DEFINITION. What claims about the block are stated in: the invariant of every step, when a command runs, the frame of a
command, sequences of commands, the message-level definition of SHA-512, and what of the state is hidden. -/

namespace Sys2Proof.Machine

/-- R60(a): every listed byte of host memory has an address below 2^ADDR_WIDTH. -/
def State.memoryInside (s : State) : Bool :=
  s.mem.cells.all (fun c => decide (c.1 < 2 ^ s.platform.addrWidth))

/-- R90, R300: while a command runs, the latched operands are what the ARG registers hold. -/
def State.latched (s : State) : Bool :=
  match s.running with
  | none => true
  | some r => decide (r.ops = s.args)

/-- The invariant: the platform's address width is legal (R5), the engine meets R38, memory is canonical and lies inside
host memory (R60), the latched operands are the ARG registers' values (R90), and ERR holds no reserved code (R240). -/
abbrev State.Inv (s : State) : Prop :=
  s.platform.wellFormed = true ∧ s.engine.sound = true ∧ s.mem.wf = true ∧ s.memoryInside = true
    ∧ s.latched = true ∧ s.err.toNat ≤ 4

/-- R64, R68: every byte of the range is admitted ordinary memory. -/
def State.reaches (s : State) (r : Range) : Bool :=
  memOrdinaryFrom s.platform r.base r.len

/-- R130: INPUT absorbs: its range is representable, FIN = 0, and the range is admitted ordinary memory. -/
abbrev State.InputRuns (s : State) : Prop :=
  s.operands.inputRange.representable s.platform = true ∧ s.engine.fin = false
    ∧ s.reaches s.operands.inputRange = true

/-- R141: RESULT writes the digest: its range is representable, COR = 0, and the range is admitted ordinary memory. -/
abbrev State.ResultRuns (s : State) : Prop :=
  s.operands.resultRange.representable s.platform = true ∧ s.engine.cor = false
    ∧ s.reaches s.operands.resultRange = true

/-- R210: HMAC writes the code: its three ranges are representable and admitted ordinary memory. -/
abbrev State.HmacRuns (s : State) : Prop :=
  s.operands.messageRange.representable s.platform = true ∧ s.operands.keyRange.representable s.platform = true
    ∧ s.operands.hmacRange.representable s.platform = true
    ∧ s.reaches s.operands.messageRange = true ∧ s.reaches s.operands.keyRange = true
    ∧ s.reaches s.operands.hmacRange = true

/-- What no command changes: the ARG registers (R22), the platform, HOST's pending actions and what HOST has read. -/
abbrev State.SameOutside (s t : State) : Prop :=
  t.args = s.args ∧ t.platform = s.platform ∧ t.events = s.events ∧ t.turns = s.turns ∧ t.observed = s.observed

/-- Memory reads as before outside a range. -/
abbrev State.SameMemoryOutside (s t : State) (r : Range) : Prop :=
  ∀ a : Nat, (a < r.base ∨ r.base + r.len ≤ a) → t.mem.read a = s.mem.read a

/-- R280's table, for the state of the block itself; the datapath is unspecified and is not in it. -/
abbrev State.AsPoweredOn (s : State) : Prop :=
  s.readReg .cmd = 0x0 ∧ s.readReg .arg0 = 0x0 ∧ s.readReg .arg1 = 0x0 ∧ s.readReg .arg2 = 0x0
    ∧ s.readReg .arg3 = 0x0 ∧ s.readReg .arg4 = 0x0 ∧ s.readReg .status = 0x0
    ∧ s.readReg .info = 0x0000020000400080 ∧ s.running = none ∧ s.err = 0x00
    ∧ s.engine.h.toList =
      [0x6a09e667f3bcc908, 0xbb67ae8584caa73b, 0x3c6ef372fe94f82b, 0xa54ff53a5f1d36f1,
       0x510e527fade682d1, 0x9b05688c2b3e6c1f, 0x1f83d9abfb41bd6b, 0x5be0cd19137e2179]
    ∧ s.engine.buf.toList = List.replicate 256 0x00 ∧ s.engine.blen = 0 ∧ s.engine.total = 0
    ∧ s.engine.fin = false ∧ s.engine.cor = false

/-- One command, accepted with the operands `op`, and run. -/
def runCommand (i : Instr) (op : Args) (s : State) : StepResult :=
  exec i { s with running := some { word := encode i, ops := op } }

/-- Commands one after the other, each accepted with its operands, up to the first that does not answer a next state. -/
def runCommands : List (Instr × Args) → State → StepResult
  | [], s => .next s
  | (i, op) :: rest, s =>
    match runCommand i op s with
    | .next t => runCommands rest t
    | .fault f => .fault f
    | .refused r => .refused r

/-- The operands of a command that has at most two. -/
def twoOperands (x y : Word) : Args :=
  { arg0 := x, arg1 := y, arg2 := 0, arg3 := 0, arg4 := 0 }

/-- The INPUT commands that absorb these chunks, each an address and a length. -/
def inputCommands (chunks : List (Word × Word)) : List (Instr × Args) :=
  chunks.map (fun c => (Instr.input, twoOperands c.1 c.2))

/-- The message that these chunks of host memory hold. -/
def Memory.message (m : Memory) (chunks : List (Word × Word)) : List Byte :=
  chunks.flatMap (fun c => m.readRange (rangeOf c.1 c.2))

/-- Whether every chunk is representable and admitted ordinary memory. -/
def State.chunksReachable (s : State) (chunks : List (Word × Word)) : Bool :=
  chunks.all (fun c => (rangeOf c.1 c.2).representable s.platform && s.reaches (rangeOf c.1 c.2))

/-- R140, R145, on a whole message: the message, 0x80, the zeros that bring the length to 16 bytes short of a whole number
of blocks, and the 16-byte big-endian bit length mod 2^128. -/
def paddedMessage (m : List Byte) : List Byte :=
  m ++ [0x80] ++ List.replicate ((239 - m.length % 128) % 128) 0 ++ beBytes 16 (8 * m.length % 2 ^ 128)

/-- SHA-512 of a whole message, with no engine: the Merkle-Damgard construction (R11) from the IV over the padded message. -/
def messageDigest (m : List Byte) : List Byte :=
  serialise (compress iv (paddedMessage m) ((paddedMessage m).length / 128))

/-- Whether a number is prime, by trial division. -/
def isPrime (n : Nat) : Bool :=
  decide (2 ≤ n) && (List.range n).all (fun d => decide (d < 2) || decide (n % d ≠ 0))

/-- The first 80 primes, 2 to 409: the primes that the constants of R32 and R179 are defined by. -/
def firstPrimes : List Nat :=
  (List.range 410).filter isPrime

/-- Two outcomes stop alike, or both answer a next state and the two next states are related. -/
def OutcomesRelated (related : State → State → Prop) (o o' : StepResult) : Prop :=
  match o, o' with
  | .next t, .next u => related t u
  | .fault f, .fault f' => f = f'
  | .refused r, .refused r' => r = r'
  | .next _, .fault _ => False
  | .next _, .refused _ => False
  | .fault _, .next _ => False
  | .fault _, .refused _ => False
  | .refused _, .next _ => False
  | .refused _, .fault _ => False

/-- R33, R39: the state with what no HOST action can tell set to 0: the bytes of BUF past BLEN, and the datapath. -/
def State.eraseHidden (s : State) : State :=
  { s with
    engine := { s.engine with buf := Vector.ofFn (fun i => if i.val < s.engine.blen then s.engine.buf[i] else 0) }
    datapath := Datapath.zero }

/-- A step's outcome with the hidden part of a next state erased. -/
def eraseOutcome (o : StepResult) : StepResult :=
  match o with
  | .next t => .next t.eraseHidden
  | .fault f => .fault f
  | .refused r => .refused r

/-- It is CORE's turn and the command accepted is `i`. -/
abbrev State.runsNow (s : State) (i : Instr) : Prop :=
  s.nextAgent = .core ∧ ∃ r, s.running = some r ∧ decode r.word = .instr i

/-- It is HOST's turn and the outside world's next action is `e`; `rest` are its later ones. -/
abbrev State.actsNow (s : State) (e : ExternalEvent) (rest : List ExternalEvent) : Prop :=
  s.engine.sound = true ∧ s.nextAgent = .host ∧ s.events = e :: rest

/-- The state with the turn and the outside world's action used up. -/
def State.afterAction (s : State) (rest : List ExternalEvent) : State :=
  s.takeTurn.dropEvent rest

/-- R247: a run of `n` steps from `s` that meets no fault and no refusal ends in `t`. -/
inductive Runs : Nat → State → State → Prop where
  | refl (s : State) : Runs 0 s s
  | head {n : Nat} {s t u : State} (first : step s = .next t) (rest : Runs n t u) : Runs (n + 1) s u

end Sys2Proof.Machine
end

