-- ==== Sys2Proof/Certificates/Slice0/Obligations.lean ====
section
/-! DEFINITION. The statements about the SHA-512 hash core, each a Prop. -/

open Sys2Proof Sys2Proof.Machine

/-! ### The invariant and reset -/

/-- The state after power-on reset meets the invariant (R38, R280; the canonical memory is the model's own form,
and the platform is its choice, assumption 2). -/
def Obligations.ResetStateMeetsInvariant : Prop :=
  State.reset.Inv

/-- Every step keeps the invariant: R38's engine invariants, canonical memory inside host memory, latched operands equal to
the ARG registers, no reserved code in ERR, and a legal ADDR_WIDTH. -/
def Obligations.StepKeepsInvariant : Prop :=
  ∀ s t : State, s.Inv → step s = .next t → t.Inv

/-- R38: a state that breaks one of the invariants faults, and no step leads from a state to one that breaks them. R38 states
them for BUSY = 0; that the check is made while BUSY = 1 too is the model's (assumption 8). -/
def Obligations.BrokenEngineFaults : Prop :=
  (∀ s : State, (128 ≤ s.engine.blen ∨ s.engine.total.toNat % 128 ≠ 0 ∨ (s.engine.cor = true ∧ s.engine.fin = false)) →
    step s = .fault .invariantBroken)
  ∧ ∀ s t : State, step s = .next t →
    t.engine.blen < 128 ∧ t.engine.total.toNat % 128 = 0 ∧ (t.engine.cor = true → t.engine.fin = true)
      ∧ t.engine.h.toList.length = 8

/-- R280: the table of values after power-on reset, for the reset state and for the reset input in every state, a command
running or not; and the engine state is that of the RESET command. -/
def Obligations.PowerOnResetTable : Prop :=
  State.reset.AsPoweredOn
  ∧ (∀ (s : State) (rest : List ExternalEvent), s.actsNow .powerOnReset rest →
      ∃ t, step s = .next t ∧ t.AsPoweredOn ∧ (s.running = none → t.mem = s.mem) ∧ t.events = rest
        ∧ t.platform = s.platform)
  ∧ ∀ s t : State, exec .reset s = .next t → t.engine = State.reset.engine

/-- A power-on reset never stops and ends the command that was running (assumption 13, the model's choice): host memory is
unchanged outside the output range of that command, and everywhere if it is no legal command or would raise an error or
stop; the platform, HOST's later actions and what HOST has read stay. -/
def Obligations.PowerOnResetCutsCommandShort : Prop :=
  ∀ (s : State) (rest : List ExternalEvent), s.actsNow .powerOnReset rest →
    ∃ t, step s = .next t ∧ t.running = none ∧ t.platform = s.platform ∧ t.events = rest ∧ t.observed = s.observed
      ∧ (∀ a : Nat, (∀ g ∈ s.runningWrites, a < g.base ∨ g.base + g.len ≤ a) → t.mem.read a = s.mem.read a)
      ∧ (s.runningWrites = [] → t.mem = s.mem)
      ∧ ∀ (r : Running) (i : Instr), s.running = some r → decode r.word = .instr i →
          (∀ u, exec i s = .next u → u.err ≠ 0x00) → t.mem = s.mem

/-- R121, with RESET's completion and frame (R120): in every state RESET answers the next state with the engine of power-on
reset, STATUS.ERR = 0 and BUSY = 0, and nothing else changed; of the datapath, which R39 leaves open, nothing is said. -/
def Obligations.ResetCommandRestoresEngine : Prop :=
  ∀ s : State, ∃ d : Datapath,
    exec .reset s = .next { s with engine := State.reset.engine, err := 0x00, running := none, datapath := d }

/-- R281: RESET and power-on reset leave the same engine; RESET leaves ARG0 to ARG4 and writes ERR = 0; and the block becomes
busy only by HOST's write of CMD. -/
def Obligations.ResetDiffersFromPowerOnInArgs : Prop :=
  (∀ (s u : State) (rest : List ExternalEvent), u.actsNow .powerOnReset rest →
    ∃ t v, exec .reset s = .next t ∧ step u = .next v ∧ t.engine = v.engine ∧ t.args = s.args ∧ t.err = 0x00
      ∧ t.busy = false ∧ v.args = State.reset.args ∧ v.busy = false)
  ∧ ∀ s t : State, step s = .next t → s.busy = false → t.busy = true →
      ∃ rest w, s.actsNow (.regWrite (s.platform.regBase + 0x00) 8 w) rest
        ∧ t.running = some { word := w, ops := s.args }

/-! ### Decoding and command issue -/

/-- The words 0x1 to 0x4 decode to RESET, INPUT, RESULT and HMAC; 0x0, 0x5, 0xff and 0x102 are illegal. -/
def Obligations.CommandWordsDecode : Prop :=
  decode 0x0000000000000001 = .instr .reset ∧ decode 0x0000000000000002 = .instr .input
  ∧ decode 0x0000000000000003 = .instr .result ∧ decode 0x0000000000000004 = .instr .hmac
  ∧ decode 0x0000000000000000 = .illegal .unassignedOpcode ∧ decode 0x0000000000000005 = .illegal .unassignedOpcode
  ∧ decode 0x00000000000000ff = .illegal .unassignedOpcode ∧ decode 0x0000000000000102 = .illegal .reservedBits

/-- R93, R94, R95: the opcode map: exactly four words are legal; a word with RSVD other than 0 or an unassigned OPC is
illegal, and CORE's turn on an illegal word changes only ERR (to ILLEGAL_COMMAND) and BUSY. -/
def Obligations.OpcodeMapIsExact : Prop :=
  (∀ w : Word, (decode w = .instr .reset ↔ w = 0x1) ∧ (decode w = .instr .input ↔ w = 0x2)
    ∧ (decode w = .instr .result ↔ w = 0x3) ∧ (decode w = .instr .hmac ↔ w = 0x4)
    ∧ (decode w = .illegal .reservedBits ↔ w.extractLsb' 8 56 ≠ 0)
    ∧ (decode w = .illegal .unassignedOpcode ↔
        w.extractLsb' 8 56 = 0 ∧ ((w.extractLsb' 0 8).toNat = 0 ∨ 5 ≤ (w.extractLsb' 0 8).toNat)))
  ∧ ∀ (s : State) (r : Running), s.engine.sound = true → s.nextAgent = .core → s.running = some r →
      r.word ≠ 0x1 → r.word ≠ 0x2 → r.word ≠ 0x3 → r.word ≠ 0x4 →
      step s = .next { s.takeTurn with err := 0x01, running := none }

/-- Decoding and encoding agree: a word decodes to a command exactly when it is the command's encoding. -/
def Obligations.DecodeInvertsEncode : Prop :=
  ∀ (w : Word) (i : Instr), decode w = .instr i ↔ w = encode i

/-- R90: a CMD write while BUSY = 0 sets BUSY and latches the operands; and a step on CORE's turn decodes the accepted word
and executes the command with the latched operands, with the turn taken and nothing else around it. Turns and withFetchWord
are the model's own (assumption 3). -/
def Obligations.StepRunsAcceptedCommand : Prop :=
  (∀ (s : State) (w : Word) (rest : List ExternalEvent),
    s.actsNow (.regWrite (s.platform.regBase + 0x00) 8 w) rest → s.busy = false →
    ∃ t, step s = .next t ∧ t = { s.afterAction rest with running := some { word := w, ops := s.args } }
      ∧ t.busy = true ∧ t.operands = s.args)
  ∧ (∀ (s : State) (i : Instr) (r : Running), s.engine.sound = true → s.nextAgent = .core → s.running = some r →
      r.word = encode i → i.wellFormed = true → step s = exec i s.takeTurn)
  ∧ ∀ (s : State) (i : Instr), s.engine.sound = true →
      step (s.withFetchWord 64 (encode i).toNat) = exec i { s with running := some { word := encode i, ops := s.args } }

/-- R24: a CMD write while BUSY = 0 sets BUSY; HOST's turns do not clear it, power-on reset apart; every command completes on
CORE's turn when its representable ranges are admitted ordinary memory, and BUSY is then 0; and STATUS read while BUSY = 1
has bit 0 set. -/
def Obligations.EveryCommandCompletes : Prop :=
  (∀ (s : State) (w : Word) (rest : List ExternalEvent),
    s.actsNow (.regWrite (s.platform.regBase + 0x00) 8 w) rest → s.busy = false →
    ∃ t, step s = .next t ∧ t.busy = true)
  ∧ (∀ s t : State, step s = .next t → s.nextAgent = .host → s.busy = true → s.events.head? ≠ some .powerOnReset →
      t.running = s.running)
  ∧ (∀ (s : State) (r : Running), s.engine.sound = true → s.nextAgent = .core → s.running = some r →
      (∀ i, decode r.word = .instr i → ∀ g ∈ readRanges i r.ops ++ writeRanges i r.ops,
        g.representable s.platform = true → s.reaches g = true) →
      ∃ t, step s = .next t ∧ t.busy = false ∧ t.status = statusWord false t.engine.fin t.engine.cor t.err)
  ∧ ∀ (s : State) (rest : List ExternalEvent),
      s.actsNow (.regRead (s.platform.regBase + 0x30) 8) rest → s.busy = true →
      ∃ t v, step s = .next t ∧ t.observed = .reg .status v :: s.observed ∧ v.getLsbD 0 = true

/-! ### INPUT -/

/-- INPUT completes (R130, R131): with m the buffered bytes followed by the len bytes at src, the floor(|m| / 128) whole blocks
of m are compressed in order, the rest of m is buffered, BLEN = |m| mod 128 and TOTAL grows by 128 a block; nothing else
changes, and no byte of memory. -/
def Obligations.InputAbsorbsWholeBlocks : Prop :=
  ∀ s : State, s.engine.sound = true → s.InputRuns →
    ∃ t, exec .input s = .next t
      ∧ (let m := s.engine.buf.toList.take s.engine.blen
            ++ s.mem.readBytes s.operands.arg0.toNat s.operands.arg1.toNat
         let q := (s.engine.blen + s.operands.arg1.toNat) / 128
         t.engine.h = compress s.engine.h (m.take (128 * q)) q
          ∧ t.engine.blen = (s.engine.blen + s.operands.arg1.toNat) % 128
          ∧ t.engine.buf.toList.take t.engine.blen = m.drop (128 * q)
          ∧ t.engine.total = s.engine.total + BitVec.ofNat 128 (128 * q))
      ∧ t.engine.fin = s.engine.fin ∧ t.engine.cor = s.engine.cor ∧ t.err = 0x00 ∧ t.running = none
      ∧ (∀ a : Nat, t.mem.read a = s.mem.read a) ∧ s.SameOutside t

/-- R132: INPUT while FIN = 1 absorbs nothing, accesses no memory (it completes whatever the platform admits), sets COR,
raises ALREADY_FINALIZED and changes nothing else; from then on COR stays set under every command but RESET, and every
RESULT whose range is representable raises CORRUPTED and changes nothing but ERR and BUSY. -/
def Obligations.InputAfterFinalizePoisons : Prop :=
  (∀ s : State, s.operands.inputRange.representable s.platform = true → s.engine.fin = true →
    exec .input s = .next { s with engine := { s.engine with cor := true }, err := 0x03, running := none })
  ∧ (∀ (i : Instr) (s t : State), i ≠ .reset → s.engine.cor = true → exec i s = .next t → t.engine.cor = true)
  ∧ ∀ s : State, s.operands.resultRange.representable s.platform = true → s.engine.cor = true →
      exec .result s = .next { s with err := 0x04, running := none }

/-- R66: a zero-length operand makes no access, whatever its address and whatever the platform admits: INPUT of 0 bytes
completes with no change of the engine; HMAC's outcome does not depend on the address of an empty message or key; and an
empty range is never range-checked. -/
def Obligations.ZeroLengthOperandsAccessNothing : Prop :=
  (∀ s : State, s.engine.sound = true → s.operands.arg1 = 0 → s.engine.fin = false →
    exec .input s = .next { s with err := 0x00, running := none })
  ∧ (∀ (s : State) (r : Running) (a : Word), s.running = some r → r.ops.arg1 = 0 →
      exec .hmac { s with running := some { r with ops := { r.ops with arg0 := a } } } = exec .hmac s)
  ∧ (∀ (s : State) (r : Running) (a : Word), s.running = some r → r.ops.arg3 = 0 →
      exec .hmac { s with running := some { r with ops := { r.ops with arg2 := a } } } = exec .hmac s)
  ∧ ∀ (p : Platform) (a : Word), (rangeOf a 0).representable p = true

/-! ### Ranges and admission -/

/-- R65: a range is representable when it is empty or base + length ≤ 2^ADDR_WIDTH as exact integers; a command with an
unrepresentable range raises INVALID_ARGUMENT and changes nothing but ERR and BUSY, whatever the engine's flags. -/
def Obligations.RangeCheckComesFirst : Prop :=
  (∀ (p : Platform) (a n : Word),
    (rangeOf a n).representable p = true ↔ (n.toNat = 0 ∨ a.toNat + n.toNat ≤ 2 ^ p.addrWidth))
  ∧ (∀ s : State, s.operands.arg1.toNat ≠ 0 →
      2 ^ s.platform.addrWidth < s.operands.arg0.toNat + s.operands.arg1.toNat →
      exec .input s = .next { s with err := 0x02, running := none })
  ∧ (∀ s : State, 2 ^ s.platform.addrWidth < s.operands.arg0.toNat + 64 →
      exec .result s = .next { s with err := 0x02, running := none })
  ∧ ∀ s : State,
      ((s.operands.arg1.toNat ≠ 0 ∧ 2 ^ s.platform.addrWidth < s.operands.arg0.toNat + s.operands.arg1.toNat)
        ∨ (s.operands.arg3.toNat ≠ 0 ∧ 2 ^ s.platform.addrWidth < s.operands.arg2.toNat + s.operands.arg3.toNat)
        ∨ 2 ^ s.platform.addrWidth < s.operands.arg4.toNat + 64) →
      exec .hmac s = .next { s with err := 0x02, running := none }

/-- R64: a command that would access a byte the platform does not admit is a fault, with no next state. That it is so too where
another byte of its ranges has side effects, which R68 refuses, is the model's choice (assumption 10). -/
def Obligations.UnadmittedAccessFaults : Prop :=
  (∀ (s : State) (k : Nat), s.operands.inputRange.representable s.platform = true → s.engine.fin = false →
    k < s.operands.arg1.toNat → memAdmit s.platform (s.operands.arg0.toNat + k) = false →
    exec .input s = .fault .memoryNotAdmitted)
  ∧ (∀ (s : State) (k : Nat), s.operands.resultRange.representable s.platform = true → s.engine.cor = false →
      k < 64 → memAdmit s.platform (s.operands.arg0.toNat + k) = false →
      exec .result s = .fault .memoryNotAdmitted)
  ∧ ∀ (s : State) (g : Range) (k : Nat),
      s.operands.messageRange.representable s.platform = true → s.operands.keyRange.representable s.platform = true →
      s.operands.hmacRange.representable s.platform = true →
      g ∈ [s.operands.messageRange, s.operands.keyRange, s.operands.hmacRange] → k < g.len →
      memAdmit s.platform (g.base + k) = false → exec .hmac s = .fault .memoryNotAdmitted

/-- A command that would access admitted memory with side effects is refused (R68, R247), when every byte it would access is
admitted. That the fault for a byte not admitted comes first is the model's choice (assumption 10). -/
def Obligations.SideEffectMemoryRefused : Prop :=
  ∀ (i : Instr) (s : State),
    (∀ g ∈ readRanges i s.operands ++ writeRanges i s.operands, g.representable s.platform = true) →
    (i = .input → s.engine.fin = false) → (i = .result → s.engine.cor = false) →
    (∀ g ∈ readRanges i s.operands ++ writeRanges i s.operands, ∀ k, k < g.len →
      memAdmit s.platform (g.base + k) = true) →
    (∃ g ∈ readRanges i s.operands ++ writeRanges i s.operands, ∃ k, k < g.len ∧
      regionKindAt (g.base + k) s.platform.regions = some .sideEffects) →
    exec i s = .refused .sideEffectMemory

/-! ### RESULT -/

/-- The first RESULT completes (R140, R141): with L = BLEN, P is BUF[0..L-1], 0x80, 128·nblk - L - 17 zero bytes and the
16-byte big-endian 8·(TOTAL + L) mod 2^128, with nblk 1 if L ≤ 111 and else 2; BUF holds P, H is Compress(H, P, nblk), FIN is
set, BLEN, TOTAL and COR stay, the 64 bytes at dst are the new digest, and no other byte of memory and nothing else changes.
That BUF past P stays is the pseudocode's letter; R33 lets it be anything (assumption 7). -/
def Obligations.ResultFinalizesAndWrites : Prop :=
  ∀ s : State, s.engine.sound = true → s.mem.wf = true → s.ResultRuns → s.engine.fin = false →
    ∃ t, exec .result s = .next t
      ∧ (let l := s.engine.blen
         let nblk := if l ≤ 111 then 1 else 2
         let p := s.engine.buf.toList.take l ++ [0x80] ++ List.replicate (128 * nblk - l - 17) 0x00
            ++ beBytes 16 (8 * (s.engine.total.toNat + l) % 2 ^ 128)
         t.engine.buf.toList.take (128 * nblk) = p
          ∧ t.engine.buf.toList.drop (128 * nblk) = s.engine.buf.toList.drop (128 * nblk)
          ∧ t.engine.h = compress s.engine.h p nblk)
      ∧ t.engine.blen = s.engine.blen ∧ t.engine.total = s.engine.total ∧ t.engine.fin = true ∧ t.engine.cor = false
      ∧ t.mem.readBytes s.operands.arg0.toNat 64 = serialise t.engine.h
      ∧ s.SameMemoryOutside t { base := s.operands.arg0.toNat, len := 64 }
      ∧ t.err = 0x00 ∧ t.running = none ∧ s.SameOutside t

/-- R143: while FIN = 1 and COR = 0, RESULT writes Serialise(H) of the H it finds, with no compression of it, and changes no
engine state; a second RESULT, to a different address, writes the same bytes there. Of the datapath, which R39 leaves open, and
of the draw counter nothing is said. -/
def Obligations.RepeatedResultWritesSameBytes : Prop :=
  ∀ s : State, s.mem.wf = true → s.ResultRuns → s.engine.fin = true →
    ∃ t, exec .result s = .next t ∧ t.engine = s.engine
      ∧ t.mem.readBytes s.operands.arg0.toNat 64 = serialise s.engine.h
      ∧ s.SameMemoryOutside t { base := s.operands.arg0.toNat, len := 64 }
      ∧ t.err = 0x00 ∧ t.running = none ∧ s.SameOutside t
      ∧ ∀ dst : Word, (outRange dst).representable s.platform = true → s.reaches (outRange dst) = true →
          ∃ u, runCommand .result (twoOperands dst 0) t = .next u ∧ u.engine = s.engine
            ∧ u.mem.readBytes dst.toNat 64 = t.mem.readBytes s.operands.arg0.toNat 64

/-- R142: the digest has 64 bytes, and output byte 8i + k is bits 63 - 8k to 56 - 8k of H[i]. -/
def Obligations.SerialiseIsBigEndian : Prop :=
  ∀ h : Vector Word 8, (serialise h).length = 64
    ∧ ∀ (i : Fin 8) (k : Fin 8), (serialise h)[8 * i.val + k.val]? = some (h[i].extractLsb' (56 - 8 * k.val) 8)

/-- R144: the number of final blocks and of zero bytes between 0x80 and the length field, for each buffered length. -/
def Obligations.FinalBlockTable : Prop :=
  ∀ e : Engine, e.blen < 128 →
    (e.blen ≤ 111 → finalBlocks e.blen = 1 ∧ ∃ field, field.length = 16
      ∧ e.padded = e.buf.toList.take e.blen ++ [0x80] ++ List.replicate (111 - e.blen) 0x00 ++ field)
    ∧ (112 ≤ e.blen → finalBlocks e.blen = 2 ∧ ∃ field, field.length = 16
      ∧ e.padded = e.buf.toList.take e.blen ++ [0x80] ++ List.replicate (239 - e.blen) 0x00 ++ field)
    ∧ (e.buf.toList.take e.blen).length = e.blen

/-- R145: the last 16 bytes of the padded tail are, as a big-endian number, 8·(TOTAL + BLEN) mod 2^128; after absorbing a
message of any length from reset, TOTAL + BLEN is its length mod 2^128; and a message shorter than 2^125 bytes gets its
exact bit length. -/
def Obligations.LengthFieldIsBitLength : Prop :=
  (∀ e : Engine,
    (e.padded.drop (e.padded.length - 16)).foldl (fun n (b : Byte) => n * 256 + b.toNat) 0
      = 8 * (e.total.toNat + e.blen) % 2 ^ 128)
  ∧ (∀ m : List Byte,
      ((Engine.init.absorb m).total.toNat + (Engine.init.absorb m).blen) % 2 ^ 128 = m.length % 2 ^ 128)
  ∧ ∀ m : List Byte, m.length < 2 ^ 125 →
      ((Engine.init.absorb m).padded.drop ((Engine.init.absorb m).padded.length - 16)).foldl
        (fun n (b : Byte) => n * 256 + b.toNat) 0 = 8 * m.length

/-! ### HMAC -/

/-- HMAC completes (R210, R212, R213): the 64 bytes at out are SHA512(opad || SHA512(ipad || M)) of the key and message bytes
as they were before the command, also where out overlaps them (R73); the streaming engine and every other byte of memory
stay as they are. -/
def Obligations.HmacWritesCode : Prop :=
  ∀ s : State, s.mem.wf = true → s.HmacRuns →
    ∃ t, exec .hmac s = .next t
      ∧ (let m := s.mem.readBytes s.operands.arg0.toNat s.operands.arg1.toNat
         let k0 := keyBlock (s.mem.readBytes s.operands.arg2.toNat s.operands.arg3.toNat)
         let ipad := k0.map (fun b => b ^^^ 0x36)
         let opad := k0.map (fun b => b ^^^ 0x5c)
         t.mem.readBytes s.operands.arg4.toNat 64 = sha512 (opad ++ sha512 (ipad ++ m)))
      ∧ s.SameMemoryOutside t { base := s.operands.arg4.toNat, len := 64 }
      ∧ t.engine = s.engine ∧ t.err = 0x00 ∧ t.running = none ∧ s.SameOutside t

/-- R211: a key of at most 128 bytes is used as it is and zero-padded to 128 bytes; a longer one is replaced by its 64-byte
hash, zero-padded to 128 bytes. -/
def Obligations.KeyBlockPadsOrHashes : Prop :=
  ∀ key : List Byte,
    (key.length ≤ 128 → keyBlock key = key ++ List.replicate (128 - key.length) 0x00)
    ∧ (key.length = 128 → keyBlock key = key)
    ∧ (128 < key.length → keyBlock key = sha512 key ++ List.replicate 64 0x00)
    ∧ (keyBlock key).length = 128

/-- R214: HMAC neither reads nor writes the streaming engine: with any other engine in its place the outcome is the same but
for that engine, which stays as it is. -/
def Obligations.HmacIgnoresStreamingEngine : Prop :=
  ∀ (s : State) (e : Engine),
    exec .hmac { s with engine := e } =
      match exec .hmac s with
      | .next t => .next { t with engine := e }
      | .fault f => .fault f
      | .refused r => .refused r

/-! ### Whole messages -/

/-- The engine's one-shot hash (R213) is SHA-512 of the whole message: the IV, the padded message, and one compression a
block, for a message of any length. -/
def Obligations.OneShotHashIsMessageDigest : Prop :=
  ∀ m : List Byte, sha512 m = messageDigest m

/-- R133: RESET, INPUT of any chunks of a message, RESULT writes the same 64 bytes as RESET, INPUT of the whole message,
RESULT: the message's digest. -/
def Obligations.ChunkingDoesNotChangeDigest : Prop :=
  ∀ (s : State) (chunks : List (Word × Word)) (src len dst : Word), s.mem.wf = true →
    s.chunksReachable chunks = true → s.chunksReachable [(src, len)] = true →
    s.mem.message chunks = s.mem.readBytes src.toNat len.toNat →
    (outRange dst).representable s.platform = true → s.reaches (outRange dst) = true →
    ∃ t u,
      runCommands ((Instr.reset, twoOperands 0 0) :: inputCommands chunks ++ [(Instr.result, twoOperands dst 0)]) s
        = .next t
      ∧ runCommands [(Instr.reset, twoOperands 0 0), (Instr.input, twoOperands src len),
          (Instr.result, twoOperands dst 0)] s = .next u
      ∧ t.mem.readBytes dst.toNat 64 = u.mem.readBytes dst.toNat 64
      ∧ t.mem.readBytes dst.toNat 64 = messageDigest (s.mem.message chunks)
      ∧ t.status = 0x2 ∧ u.status = 0x2

/-- The pseudo-instruction HASH (R98), run by HOST's twelve steps in a state where no command runs: the 64 bytes at dst are the
digest of the len bytes at src, STATUS reads 0x2 at the end, and no other byte of memory changes.
That HOST acts while no command runs and CORE while one does is the model's schedule (assumption 3). -/
def Obligations.HashPseudoInstructionWritesDigest : Prop :=
  ∀ (s : State) (src len dst : Word) (rest : List ExternalEvent),
    s.engine.sound = true → s.mem.wf = true → s.running = none → s.turns = [] →
    s.events = (Pseudo.hash src len dst).expand s.platform ++ rest →
    s.chunksReachable [(src, len)] = true →
    (outRange dst).representable s.platform = true → s.reaches (outRange dst) = true →
    ∃ t, Runs 12 s t ∧ t.events = rest ∧ t.running = none
      ∧ t.mem.readBytes dst.toNat 64 = messageDigest (s.mem.readBytes src.toNat len.toNat)
      ∧ s.SameMemoryOutside t { base := dst.toNat, len := 64 }
      ∧ t.observed = [.reg .status 0x2, .reg .status 0x0, .reg .status 0x0] ++ s.observed

/-! ### The compression core -/

/-- R170, R171, R176, R177: ROTR is rotation to the right for 0 < n < 64, SHR fills with zeros, each bit of Ch is the f bit
where e is 1 and the g bit where e is 0, and each bit of Maj is the majority of the three. -/
def Obligations.WordFunctionsBitByBit : Prop :=
  (∀ (n i : Nat) (x : Word), 0 < n → n < 64 → i < 64 →
    (rotr n x).getLsbD i = x.getLsbD ((i + n) % 64))
  ∧ (∀ (n i : Nat) (x : Word), i < 64 → (shr n x).getLsbD i = (decide (i + n < 64) && x.getLsbD (i + n)))
  ∧ (∀ (e f g : Word) (i : Nat), i < 64 → (ch e f g).getLsbD i = if e.getLsbD i then f.getLsbD i else g.getLsbD i)
  ∧ ∀ (a b c : Word) (i : Nat), i < 64 →
      (maj a b c).getLsbD i = decide (2 ≤ (a.getLsbD i).toNat + (b.getLsbD i).toNat + (c.getLsbD i).toNat)

/-- R172, R173, R174, R175: bit i of σ0, σ1, Σ0 and Σ1 of x, as the exclusive or of three bits of x; a bit past the top of a
SHR term is 0. -/
def Obligations.SigmaFunctionsBitByBit : Prop :=
  ∀ (x : Word) (i : Nat), i < 64 →
    (smallSigma0 x).getLsbD i
        = (x.getLsbD ((i + 1) % 64) ^^ x.getLsbD ((i + 8) % 64) ^^ (decide (i + 7 < 64) && x.getLsbD (i + 7)))
    ∧ (smallSigma1 x).getLsbD i
        = (x.getLsbD ((i + 19) % 64) ^^ x.getLsbD ((i + 61) % 64) ^^ (decide (i + 6 < 64) && x.getLsbD (i + 6)))
    ∧ (bigSigma0 x).getLsbD i
        = (x.getLsbD ((i + 28) % 64) ^^ x.getLsbD ((i + 34) % 64) ^^ x.getLsbD ((i + 39) % 64))
    ∧ (bigSigma1 x).getLsbD i
        = (x.getLsbD ((i + 14) % 64) ^^ x.getLsbD ((i + 18) % 64) ^^ x.getLsbD ((i + 41) % 64))

/-- R32, R179: H at reset holds the first 64 bits of the fractional parts of the square roots of the first 8 primes, and
K[0..79] those of the cube roots of the first 80: with its whole part q before it, each constant is the integer root of the
prime scaled by 2^128, or by 2^192. -/
def Obligations.ConstantsArePrimeRoots : Prop :=
  firstPrimes.length = 80 ∧ roundConstants.length = 80
  ∧ (∀ i : Nat, i < 8 → ∃ q : Nat,
      (q * 2 ^ 64 + (State.reset.engine.h.toList.getD i 0).toNat) ^ 2 ≤ firstPrimes.getD i 0 * 2 ^ 128
      ∧ firstPrimes.getD i 0 * 2 ^ 128 < (q * 2 ^ 64 + (State.reset.engine.h.toList.getD i 0).toNat + 1) ^ 2)
  ∧ ∀ t : Nat, t < 80 → ∃ q : Nat,
      (q * 2 ^ 64 + (roundConstants.getD t 0).toNat) ^ 3 ≤ firstPrimes.getD t 0 * 2 ^ 192
      ∧ firstPrimes.getD t 0 * 2 ^ 192 < (q * 2 ^ 64 + (roundConstants.getD t 0).toNat + 1) ^ 3

/-- R181, R182: the schedule has 80 words; the first 16 are the block's big-endian 8-byte groups, so that byte 8i + k of the
block is bits 63 - 8k to 56 - 8k of W[i]; and W[i] = σ1(W[i-2]) + W[i-7] + σ0(W[i-15]) + W[i-16] for i in 16 to 79. -/
def Obligations.ScheduleFollowsRecurrence : Prop :=
  ∀ block : List Byte, block.length = 128 →
    (schedule block).length = 80
    ∧ (∀ i k : Nat, i < 16 → k < 8 →
        ((schedule block).getD i 0).extractLsb' (56 - 8 * k) 8 = block.getD (8 * i + k) 0)
    ∧ ∀ i : Nat, 16 ≤ i → i < 80 →
        (schedule block).getD i 0
          = smallSigma1 ((schedule block).getD (i - 2) 0) + (schedule block).getD (i - 7) 0
            + smallSigma0 ((schedule block).getD (i - 15) 0) + (schedule block).getD (i - 16) 0

/-- R183, R184, R185: compressing a block starts the working variables from H, runs 80 rounds in order, round t with K[t] and
W[t], each reading the values from before it, and adds the variables to H modulo 2^64. R186: Compress of n blocks compresses
them in sequence, block j being bytes 128j to 128j + 127, each block's digest feeding the next. -/
def Obligations.CompressBlockIsEightyRounds : Prop :=
  (∀ (h : Vector Word 8) (block : List Byte),
    ∃ v : Nat → WorkVars,
      (v 0).toList = h.toList
      ∧ (∀ t : Nat, t < 80 →
          let t1 := (v t).h + bigSigma1 (v t).e + ch (v t).e (v t).f (v t).g + roundConstants.getD t 0
            + (schedule block).getD t 0
          let t2 := bigSigma0 (v t).a + maj (v t).a (v t).b (v t).c
          (v (t + 1)).h = (v t).g ∧ (v (t + 1)).g = (v t).f ∧ (v (t + 1)).f = (v t).e
            ∧ (v (t + 1)).e = (v t).d + t1 ∧ (v (t + 1)).d = (v t).c ∧ (v (t + 1)).c = (v t).b
            ∧ (v (t + 1)).b = (v t).a ∧ (v (t + 1)).a = t1 + t2)
      ∧ (compressBlock h block).toList = List.zipWith (· + ·) h.toList (v 80).toList
      ∧ ∀ x : WorkVars, x.toList = [x.a, x.b, x.c, x.d, x.e, x.f, x.g, x.h])
  ∧ ∀ (h : Vector Word 8) (data : List Byte) (n : Nat), data.length = 128 * n →
      ∃ d : Nat → Vector Word 8, d 0 = h
        ∧ (∀ j : Nat, j < n → d (j + 1) = compressBlock (d j) ((data.drop (128 * j)).take 128))
        ∧ compress h data n = d n

/-! ### The register window -/

/-- R23: STATUS has BUSY in bit 0, FIN in bit 1, COR in bit 2 and ERR in bits 15:8; its other bits read 0, also while
BUSY = 1; it is 0 at reset; and a write of it while BUSY = 0 is ignored. -/
def Obligations.StatusLayout : Prop :=
  (∀ s : State, s.status.getLsbD 0 = s.busy ∧ s.status.getLsbD 1 = s.engine.fin ∧ s.status.getLsbD 2 = s.engine.cor
    ∧ s.status.extractLsb' 3 5 = 0 ∧ s.status.extractLsb' 8 8 = s.err ∧ s.status.extractLsb' 16 48 = 0)
  ∧ (∀ s : State, s.busy = true → (s.readReg .status).getLsbD 0 = true
      ∧ (s.readReg .status).extractLsb' 3 5 = 0 ∧ (s.readReg .status).extractLsb' 16 48 = 0)
  ∧ State.reset.readReg .status = 0x0000000000000000
  ∧ ∀ (s : State) (v : Word) (rest : List ExternalEvent),
      s.actsNow (.regWrite (s.platform.regBase + 0x30) 8 v) rest → s.busy = false →
      step s = .next (s.afterAction rest)

/-- R28: INFO reads 0x0000020000400080 at all times, while busy too: BLOCK_SIZE 128 in bits 15:0, HASH_SIZE 64 in bits 31:16,
HASH_SIZE_BITS 512 in bits 47:32, bits 63:48 zero; and a write of it while BUSY = 0 is ignored. -/
def Obligations.InfoIsConstant : Prop :=
  (∀ (s : State) (rest : List ExternalEvent), s.actsNow (.regRead (s.platform.regBase + 0x38) 8) rest →
    step s = .next { s.afterAction rest with observed := .reg .info 0x0000020000400080 :: s.observed })
  ∧ infoWord.extractLsb' 0 16 = 128 ∧ infoWord.extractLsb' 16 16 = 64 ∧ infoWord.extractLsb' 32 16 = 512
  ∧ infoWord.extractLsb' 48 16 = 0
  ∧ ∀ (s : State) (v : Word) (rest : List ExternalEvent),
      s.actsNow (.regWrite (s.platform.regBase + 0x38) 8 v) rest → s.busy = false →
      step s = .next (s.afterAction rest)

/-- HOST's 64-bit reads of the window (R20 to R23): CMD reads 0 and ARG0 to ARG4 read what they store, while BUSY = 1 too
(assumption 14), and STATUS, while BUSY = 0, reads FIN, COR and ERR in their places; a read changes nothing but what HOST has
read. -/
def Obligations.RegisterReadsReturnContents : Prop :=
  ∀ (s : State) (off : Nat) (rest : List ExternalEvent),
    s.actsNow (.regRead (s.platform.regBase + off) 8) rest →
    (off = 0x00 → step s = .next { s.afterAction rest with observed := .reg .cmd 0x0 :: s.observed })
    ∧ (off = 0x08 → step s = .next { s.afterAction rest with observed := .reg .arg0 s.args.arg0 :: s.observed })
    ∧ (off = 0x10 → step s = .next { s.afterAction rest with observed := .reg .arg1 s.args.arg1 :: s.observed })
    ∧ (off = 0x18 → step s = .next { s.afterAction rest with observed := .reg .arg2 s.args.arg2 :: s.observed })
    ∧ (off = 0x20 → step s = .next { s.afterAction rest with observed := .reg .arg3 s.args.arg3 :: s.observed })
    ∧ (off = 0x28 → step s = .next { s.afterAction rest with observed := .reg .arg4 s.args.arg4 :: s.observed })
    ∧ (off = 0x30 → s.busy = false → step s = .next { s.afterAction rest with
        observed := .reg .status (statusWord false s.engine.fin s.engine.cor s.err) :: s.observed })

/-- HOST's 64-bit writes of ARG0 to ARG4 while BUSY = 0 store all 64 bits in that register alone (R22). -/
def Obligations.ArgWritesStoreWholeWord : Prop :=
  ∀ (s : State) (off : Nat) (v : Word) (rest : List ExternalEvent),
    s.actsNow (.regWrite (s.platform.regBase + off) 8 v) rest → s.busy = false →
    (off = 0x08 → step s = .next { s.afterAction rest with args := { s.args with arg0 := v } })
    ∧ (off = 0x10 → step s = .next { s.afterAction rest with args := { s.args with arg1 := v } })
    ∧ (off = 0x18 → step s = .next { s.afterAction rest with args := { s.args with arg2 := v } })
    ∧ (off = 0x20 → step s = .next { s.afterAction rest with args := { s.args with arg3 := v } })
    ∧ (off = 0x28 → step s = .next { s.afterAction rest with args := { s.args with arg4 := v } })

/-- R29: a HOST access of another width, misaligned, or outside offsets 0x00 to 0x38 is refused; every other read changes
nothing but what HOST has read, and uses up a free value only for STATUS while BUSY = 1; and every other write that goes
through changes nothing but, at CMD, the command accepted, and at ARG0 to ARG4, those registers. That the refusal comes before
R300's fault while BUSY = 1, and holds below the window too, is assumption 14; the draw counter is assumption 4. -/
def Obligations.OddRegisterAccessRefused : Prop :=
  (∀ (s : State) (addr width : Nat) (v : Word) (rest : List ExternalEvent),
    (width ≠ 8 ∨ addr < s.platform.regBase ∨ (addr - s.platform.regBase) % 8 ≠ 0
      ∨ 0x40 ≤ addr - s.platform.regBase) →
    (s.actsNow (.regWrite addr width v) rest → step s = .refused .oddRegisterAccess)
    ∧ (s.actsNow (.regRead addr width) rest → step s = .refused .oddRegisterAccess))
  ∧ (∀ (s : State) (off : Nat) (rest : List ExternalEvent),
      s.actsNow (.regRead (s.platform.regBase + off) 8) rest → off % 8 = 0 → off < 0x40 →
      ∃ r v, step s = .next { s.afterAction rest with
          observed := .reg r v :: s.observed
          draws := if off = 0x30 ∧ s.busy = true then s.draws + 1 else s.draws })
  ∧ ∀ (s : State) (off : Nat) (v : Word) (rest : List ExternalEvent),
      s.actsNow (.regWrite (s.platform.regBase + off) 8 v) rest → off % 8 = 0 → off < 0x40 → s.busy = false →
      ∃ t, step s = .next t
        ∧ t = { s.afterAction rest with running := t.running, args := t.args }
        ∧ (off ≠ 0x00 → t.running = s.running)
        ∧ (off ∉ [0x08, 0x10, 0x18, 0x20, 0x28] → t.args = s.args)

/-- R300: from the accepted CMD write until BUSY is 0, a HOST write of any register of the window is a fault, while HOST may
read STATUS, whose bit 0 is then 1, and INFO. -/
def Obligations.BusyRegisterWritesFault : Prop :=
  (∀ (s : State) (off : Nat) (v : Word) (rest : List ExternalEvent),
    s.actsNow (.regWrite (s.platform.regBase + off) 8 v) rest → off % 8 = 0 → off < 0x40 → s.busy = true →
    step s = .fault .busyRegisterWrite)
  ∧ (∀ (s : State) (rest : List ExternalEvent),
      s.actsNow (.regRead (s.platform.regBase + 0x30) 8) rest → s.busy = true →
      ∃ t v, step s = .next t ∧ t.observed = .reg .status v :: s.observed ∧ v.getLsbD 0 = true)
  ∧ ∀ (s : State) (rest : List ExternalEvent),
      s.actsNow (.regRead (s.platform.regBase + 0x38) 8) rest → s.busy = true →
      ∃ t, step s = .next t ∧ t.observed = .reg .info 0x0000020000400080 :: s.observed

/-- R301: while a command runs, (a) a HOST write of a byte of its input range is a fault; (b) a HOST read of a byte of its
output range returns some value, and changes nothing else but what HOST has read; (c) HOST's accesses to other ordinary
memory read and write it as ever. The fault for a write of an output byte is the model's reading of R247 (assumption 9). While
no command runs, or the word accepted is illegal, HOST's accesses to ordinary memory store the byte and read what was stored
(R68, R72). -/
def Obligations.BusyMemoryHazards : Prop :=
  (∀ (s : State) (a : Nat) (rest : List ExternalEvent),
    (s.running = none ∨ ∃ r why, s.running = some r ∧ decode r.word = .illegal why) →
    a < 2 ^ s.platform.addrWidth → memOrdinary s.platform a = true →
    (∀ b, s.actsNow (.memWrite a b) rest →
      ∃ t, step s = .next t ∧ t = { s.afterAction rest with mem := t.mem } ∧ (s.mem.wf = true → t.mem.read a = b)
        ∧ ∀ k : Nat, k ≠ a → t.mem.read k = s.mem.read k)
    ∧ (s.actsNow (.memRead a) rest →
        step s = .next { s.afterAction rest with observed := .mem a (s.mem.read a) :: s.observed }))
  ∧ ∀ (s : State) (r : Running) (i : Instr) (a : Nat) (rest : List ExternalEvent),
    s.running = some r → decode r.word = .instr i → a < 2 ^ s.platform.addrWidth →
    memOrdinary s.platform a = true →
    ((∃ g ∈ readRanges i r.ops ++ writeRanges i r.ops, g.base ≤ a ∧ a < g.base + g.len) →
      ∀ b, s.actsNow (.memWrite a b) rest → step s = .fault .busyMemoryWrite)
    ∧ ((∃ g ∈ writeRanges i r.ops, g.base ≤ a ∧ a < g.base + g.len) →
      s.actsNow (.memRead a) rest →
      ∃ b, step s = .next { s.afterAction rest with observed := .mem a b :: s.observed, draws := s.draws + 1 })
    ∧ ((∀ g ∈ readRanges i r.ops ++ writeRanges i r.ops, a < g.base ∨ g.base + g.len ≤ a) →
      ∀ b, s.actsNow (.memWrite a b) rest →
        step s = .next { s.afterAction rest with mem := s.mem.write a b })
    ∧ ((∀ g ∈ writeRanges i r.ops, a < g.base ∨ g.base + g.len ≤ a) →
      s.actsNow (.memRead a) rest →
        step s = .next { s.afterAction rest with observed := .mem a (s.mem.read a) :: s.observed })

/-- One turn of POLL (R97) reads STATUS; the POLL stays HOST's next action while BUSY reads 1 and is done when it reads 0.
One read a turn is the model's choice (assumption 3). -/
def Obligations.PollWaitsForBusyZero : Prop :=
  ∀ (s : State) (rest : List ExternalEvent), s.actsNow .poll rest →
    (s.busy = false → step s = .next { s.afterAction rest with
        observed := .reg .status (statusWord false s.engine.fin s.engine.cor s.err) :: s.observed })
    ∧ (s.busy = true → ∃ t v, step s = .next t ∧ t.events = .poll :: rest
        ∧ t.observed = .reg .status v :: s.observed ∧ v.getLsbD 0 = true ∧ t.running = s.running)

/-! ### Errors -/

/-- R241, R242: a command, legal or not, that CORE's turn ends with an error has changed nothing but ERR, BUSY and, for
ALREADY_FINALIZED, COR; STATUS then shows FIN, COR and the code; and the same holds of every meaning by itself. -/
def Obligations.ErrorsArePrecise : Prop :=
  (∀ (s t : State) (r : Running), s.nextAgent = .core → s.running = some r → step s = .next t → t.err ≠ 0x00 →
    (t = { s.takeTurn with err := t.err, running := none }
      ∨ (decode r.word = .instr .input ∧ t.err = 0x03
        ∧ t = { s.takeTurn with engine := { s.engine with cor := true }, err := 0x03, running := none }))
    ∧ t.status = statusWord false t.engine.fin t.engine.cor t.err)
  ∧ ∀ (i : Instr) (s t : State), exec i s = .next t → t.err ≠ 0x00 →
    (t = { s with err := t.err, running := none }
      ∨ (i = .input ∧ t.err = 0x03
        ∧ t = { s with engine := { s.engine with cor := true }, err := 0x03, running := none }))
    ∧ t.status = statusWord false t.engine.fin t.engine.cor t.err

/-- R240, R243: which code a command that completes reports: the range check comes before FIN and COR, and nothing else
raises an error. -/
def Obligations.ErrNamesTheFirstCause : Prop :=
  (∀ s t : State, exec .reset s = .next t → t.err = 0x00)
  ∧ (∀ s t : State, exec .input s = .next t → t.err =
      if s.operands.arg1.toNat ≠ 0 ∧ 2 ^ s.platform.addrWidth < s.operands.arg0.toNat + s.operands.arg1.toNat then 0x02
      else if s.engine.fin = true then 0x03 else 0x00)
  ∧ (∀ s t : State, exec .result s = .next t → t.err =
      if 2 ^ s.platform.addrWidth < s.operands.arg0.toNat + 64 then 0x02
      else if s.engine.cor = true then 0x04 else 0x00)
  ∧ (∀ s t : State, exec .hmac s = .next t → t.err =
      if (s.operands.arg1.toNat ≠ 0 ∧ 2 ^ s.platform.addrWidth < s.operands.arg0.toNat + s.operands.arg1.toNat)
        ∨ (s.operands.arg3.toNat ≠ 0 ∧ 2 ^ s.platform.addrWidth < s.operands.arg2.toNat + s.operands.arg3.toNat)
        ∨ 2 ^ s.platform.addrWidth < s.operands.arg4.toNat + 64 then 0x02
      else 0x00)
  ∧ ∀ (s t : State) (r : Running), s.nextAgent = .core → s.running = some r →
      r.word ≠ 0x1 → r.word ≠ 0x2 → r.word ≠ 0x3 → r.word ≠ 0x4 → step s = .next t → t.err = 0x01

/-! ### Whole-machine rules -/

/-- R36: FIN is 0 at reset; only a RESULT sets it, by finalizing; only RESET and power-on reset clear it; and while it is 1,
INPUT is an error and RESULT, with COR = 0, returns the digest again. -/
def Obligations.FinalizedFlagRule : Prop :=
  State.reset.engine.fin = false
  ∧ (∀ s t : State, step s = .next t → s.engine.fin = false → t.engine.fin = true →
      s.runsNow .result ∧ t.err = 0x00)
  ∧ (∀ s t : State, step s = .next t → s.engine.fin = true → t.engine.fin = false →
      s.runsNow .reset ∨ ∃ rest, s.actsNow .powerOnReset rest)
  ∧ (∀ s : State, s.engine.fin = true → ∃ t, exec .input s = .next t ∧ t.err ≠ 0x00 ∧ t.engine.h = s.engine.h)
  ∧ (∀ s : State, s.ResultRuns → ∃ t, exec .result s = .next t ∧ t.engine.fin = true)
  ∧ ∀ s : State, s.mem.wf = true → s.engine.fin = true → s.ResultRuns →
      ∃ t, exec .result s = .next t ∧ t.mem.readBytes s.operands.arg0.toNat 64 = serialise s.engine.h
        ∧ t.engine = s.engine

/-- R37: COR is 0 at reset; the only event that sets it is an INPUT command while FIN = 1; only RESET and power-on reset clear
it; and while it is 1, a RESULT whose range is representable raises CORRUPTED and writes no output. -/
def Obligations.CorruptedFlagRule : Prop :=
  State.reset.engine.cor = false
  ∧ (∀ s t : State, step s = .next t → s.engine.cor = false → t.engine.cor = true →
      s.runsNow .input ∧ s.engine.fin = true ∧ t.err = 0x03)
  ∧ (∀ s t : State, step s = .next t → s.engine.cor = true → t.engine.cor = false →
      s.runsNow .reset ∨ ∃ rest, s.actsNow .powerOnReset rest)
  ∧ ∀ s : State, s.engine.cor = true → s.operands.resultRange.representable s.platform = true →
      ∃ t, exec .result s = .next t ∧ t.err = 0x04 ∧ t.mem = s.mem ∧ t.engine = s.engine

/-- No command writes an ARG register (R22): a step changes ARG0 to ARG4 only by HOST's write of one of them while BUSY = 0
or by power-on reset; and no step changes the platform. -/
def Obligations.ArgsChangeOnlyFromOutside : Prop :=
  ∀ s t : State, step s = .next t →
    t.platform = s.platform
    ∧ (t.args = s.args
      ∨ (∃ rest, s.actsNow .powerOnReset rest)
      ∨ (s.busy = false ∧ ∃ rest off v, s.actsNow (.regWrite (s.platform.regBase + off) 8 v) rest
          ∧ off ∈ [0x08, 0x10, 0x18, 0x20, 0x28]))

/-- A step changes a byte of host memory only in the output range of the command that CORE then runs, at the address of a
byte that HOST writes, or, on a power-on reset, in the output range of the command it cuts short (R60, R71; the last is the
model's choice, assumption 13). -/
def Obligations.MemoryChangesOnlyWhereNamed : Prop :=
  ∀ (s t : State) (a : Nat), step s = .next t → t.mem.read a ≠ s.mem.read a →
    (s.nextAgent = .core ∧ ∃ r i, s.running = some r ∧ decode r.word = .instr i
      ∧ ∃ g ∈ writeRanges i r.ops, g.base ≤ a ∧ a < g.base + g.len)
    ∨ (∃ rest b, s.actsNow (.memWrite a b) rest)
    ∨ ((∃ rest, s.actsNow .powerOnReset rest) ∧ ∃ g ∈ s.runningWrites, g.base ≤ a ∧ a < g.base + g.len)

/-- A command's outcome depends on host memory only through its own input ranges (R78): with any other memory that agrees on
them, it stops alike, or leaves the same state but for memory, and the same bytes in its output range. -/
def Obligations.CommandsReadOnlyTheirOperands : Prop :=
  ∀ (i : Instr) (s : State) (m : Memory), s.mem.wf = true → m.wf = true →
    (∀ g ∈ readRanges i s.operands, ∀ a, g.base ≤ a → a < g.base + g.len → m.read a = s.mem.read a) →
    OutcomesRelated
      (fun t u => u = { t with mem := u.mem }
        ∧ (t.err = 0x00 → ∀ g ∈ writeRanges i s.operands, u.mem.readRange g = t.mem.readRange g))
      (exec i s) (exec i { s with mem := m })

/-- What R33 and R40 say cannot be observed never shows: two states that differ only in the bytes of BUF past BLEN and in the
datapath take steps that stop alike or lead to states that differ only so. -/
def Obligations.HiddenStateNeverShows : Prop :=
  ∀ s s' : State, s.eraseHidden = s'.eraseHidden → eraseOutcome (step s) = eraseOutcome (step s')
end

