-- ==== Sys2Proof/Laws/State.lean ====
section
/-! SUPPORT. One lemma per field per update of the state, and the small facts of the status word. -/

namespace Sys2Proof.Machine

section Finish
variable (s : State) (e : Err)

@[simp] theorem State.finish_platform : (s.finish e).platform = s.platform := rfl
@[simp] theorem State.finish_args : (s.finish e).args = s.args := rfl
@[simp] theorem State.finish_err : (s.finish e).err = errCode e := rfl
@[simp] theorem State.finish_running : (s.finish e).running = none := rfl
@[simp] theorem State.finish_engine : (s.finish e).engine = s.engine := rfl
@[simp] theorem State.finish_datapath : (s.finish e).datapath = s.datapath := rfl
@[simp] theorem State.finish_mem : (s.finish e).mem = s.mem := rfl
@[simp] theorem State.finish_events : (s.finish e).events = s.events := rfl
@[simp] theorem State.finish_turns : (s.finish e).turns = s.turns := rfl
@[simp] theorem State.finish_observed : (s.finish e).observed = s.observed := rfl
@[simp] theorem State.finish_draws : (s.finish e).draws = s.draws := rfl
@[simp] theorem State.finish_busy : (s.finish e).busy = false := rfl

end Finish

section LeaveDatapath
variable (s : State) (n : Nat)

@[simp] theorem State.leaveDatapath_platform : (s.leaveDatapath n).platform = s.platform := by
  unfold State.leaveDatapath; split <;> rfl
@[simp] theorem State.leaveDatapath_args : (s.leaveDatapath n).args = s.args := by
  unfold State.leaveDatapath; split <;> rfl
@[simp] theorem State.leaveDatapath_err : (s.leaveDatapath n).err = s.err := by
  unfold State.leaveDatapath; split <;> rfl
@[simp] theorem State.leaveDatapath_running : (s.leaveDatapath n).running = s.running := by
  unfold State.leaveDatapath; split <;> rfl
@[simp] theorem State.leaveDatapath_engine : (s.leaveDatapath n).engine = s.engine := by
  unfold State.leaveDatapath; split <;> rfl
@[simp] theorem State.leaveDatapath_mem : (s.leaveDatapath n).mem = s.mem := by
  unfold State.leaveDatapath; split <;> rfl
@[simp] theorem State.leaveDatapath_events : (s.leaveDatapath n).events = s.events := by
  unfold State.leaveDatapath; split <;> rfl
@[simp] theorem State.leaveDatapath_turns : (s.leaveDatapath n).turns = s.turns := by
  unfold State.leaveDatapath; split <;> rfl
@[simp] theorem State.leaveDatapath_observed : (s.leaveDatapath n).observed = s.observed := by
  unfold State.leaveDatapath; split <;> rfl
@[simp] theorem State.leaveDatapath_zero : s.leaveDatapath 0 = s := rfl

end LeaveDatapath

section TakeTurn
variable (s : State)

@[simp] theorem State.takeTurn_platform : s.takeTurn.platform = s.platform := rfl
@[simp] theorem State.takeTurn_args : s.takeTurn.args = s.args := rfl
@[simp] theorem State.takeTurn_err : s.takeTurn.err = s.err := rfl
@[simp] theorem State.takeTurn_running : s.takeTurn.running = s.running := rfl
@[simp] theorem State.takeTurn_engine : s.takeTurn.engine = s.engine := rfl
@[simp] theorem State.takeTurn_datapath : s.takeTurn.datapath = s.datapath := rfl
@[simp] theorem State.takeTurn_mem : s.takeTurn.mem = s.mem := rfl
@[simp] theorem State.takeTurn_events : s.takeTurn.events = s.events := rfl
@[simp] theorem State.takeTurn_turns : s.takeTurn.turns = s.turns.tail := rfl
@[simp] theorem State.takeTurn_observed : s.takeTurn.observed = s.observed := rfl
@[simp] theorem State.takeTurn_draws : s.takeTurn.draws = s.draws := rfl
@[simp] theorem State.takeTurn_operands : s.takeTurn.operands = s.operands := rfl
@[simp] theorem State.takeTurn_busy : s.takeTurn.busy = s.busy := rfl

/-- Taking the turn back off an accepted command leaves the state with the command accepted and nothing else changed. -/
@[simp] theorem State.accepted_takeTurn (w : Word) :
    (s.accepted w).takeTurn = { s with running := some { word := w, ops := s.args } } := rfl

@[simp] theorem State.accepted_nextAgent (w : Word) : (s.accepted w).nextAgent = .core := rfl
@[simp] theorem State.accepted_engine (w : Word) : (s.accepted w).engine = s.engine := rfl

end TakeTurn

section AfterAction
variable (s : State) (rest : List ExternalEvent)

@[simp] theorem State.dropEvent_platform : (s.dropEvent rest).platform = s.platform := rfl
@[simp] theorem State.dropEvent_args : (s.dropEvent rest).args = s.args := rfl
@[simp] theorem State.dropEvent_err : (s.dropEvent rest).err = s.err := rfl
@[simp] theorem State.dropEvent_running : (s.dropEvent rest).running = s.running := rfl
@[simp] theorem State.dropEvent_engine : (s.dropEvent rest).engine = s.engine := rfl
@[simp] theorem State.dropEvent_datapath : (s.dropEvent rest).datapath = s.datapath := rfl
@[simp] theorem State.dropEvent_mem : (s.dropEvent rest).mem = s.mem := rfl
@[simp] theorem State.dropEvent_observed : (s.dropEvent rest).observed = s.observed := rfl
@[simp] theorem State.dropEvent_draws : (s.dropEvent rest).draws = s.draws := rfl
@[simp] theorem State.dropEvent_events : (s.dropEvent rest).events = rest := rfl
@[simp] theorem State.dropEvent_turns : (s.dropEvent rest).turns = s.turns := rfl
@[simp] theorem State.dropEvent_busy : (s.dropEvent rest).busy = s.busy := rfl
@[simp] theorem State.dropEvent_operands : (s.dropEvent rest).operands = s.operands := rfl
@[simp] theorem State.dropEvent_runningReads : (s.dropEvent rest).runningReads = s.runningReads := rfl
@[simp] theorem State.dropEvent_runningWrites : (s.dropEvent rest).runningWrites = s.runningWrites := rfl
@[simp] theorem State.dropEvent_readReg (r : Reg) : (s.dropEvent rest).readReg r = s.readReg r := rfl
@[simp] theorem State.afterAction_platform : (s.afterAction rest).platform = s.platform := rfl
@[simp] theorem State.afterAction_args : (s.afterAction rest).args = s.args := rfl
@[simp] theorem State.afterAction_err : (s.afterAction rest).err = s.err := rfl
@[simp] theorem State.afterAction_running : (s.afterAction rest).running = s.running := rfl
@[simp] theorem State.afterAction_engine : (s.afterAction rest).engine = s.engine := rfl
@[simp] theorem State.afterAction_datapath : (s.afterAction rest).datapath = s.datapath := rfl
@[simp] theorem State.afterAction_mem : (s.afterAction rest).mem = s.mem := rfl
@[simp] theorem State.afterAction_observed : (s.afterAction rest).observed = s.observed := rfl
@[simp] theorem State.afterAction_draws : (s.afterAction rest).draws = s.draws := rfl
@[simp] theorem State.afterAction_events : (s.afterAction rest).events = rest := rfl
@[simp] theorem State.afterAction_turns : (s.afterAction rest).turns = s.turns.tail := rfl
@[simp] theorem State.afterAction_busy : (s.afterAction rest).busy = s.busy := rfl
@[simp] theorem State.afterAction_operands : (s.afterAction rest).operands = s.operands := rfl
@[simp] theorem State.afterAction_runningReads : (s.afterAction rest).runningReads = s.runningReads := rfl
@[simp] theorem State.afterAction_runningWrites : (s.afterAction rest).runningWrites = s.runningWrites := rfl
@[simp] theorem State.afterAction_readReg (r : Reg) : (s.afterAction rest).readReg r = s.readReg r := rfl

end AfterAction

section WriteReg
variable (s : State) (r : Reg) (v : Word)

@[simp] theorem State.writeReg_platform : (s.writeReg r v).platform = s.platform := by cases r <;> rfl
@[simp] theorem State.writeReg_err : (s.writeReg r v).err = s.err := by cases r <;> rfl
@[simp] theorem State.writeReg_engine : (s.writeReg r v).engine = s.engine := by cases r <;> rfl
@[simp] theorem State.writeReg_datapath : (s.writeReg r v).datapath = s.datapath := by cases r <;> rfl
@[simp] theorem State.writeReg_mem : (s.writeReg r v).mem = s.mem := by cases r <;> rfl
@[simp] theorem State.writeReg_events : (s.writeReg r v).events = s.events := by cases r <;> rfl
@[simp] theorem State.writeReg_turns : (s.writeReg r v).turns = s.turns := by cases r <;> rfl
@[simp] theorem State.writeReg_observed : (s.writeReg r v).observed = s.observed := by cases r <;> rfl
@[simp] theorem State.writeReg_draws : (s.writeReg r v).draws = s.draws := by cases r <;> rfl

end WriteReg

section ObserveReg
variable (s : State) (r : Reg)

@[simp] theorem State.observeReg_platform : (s.observeReg r).platform = s.platform := rfl
@[simp] theorem State.observeReg_args : (s.observeReg r).args = s.args := rfl
@[simp] theorem State.observeReg_err : (s.observeReg r).err = s.err := rfl
@[simp] theorem State.observeReg_running : (s.observeReg r).running = s.running := rfl
@[simp] theorem State.observeReg_engine : (s.observeReg r).engine = s.engine := rfl
@[simp] theorem State.observeReg_datapath : (s.observeReg r).datapath = s.datapath := rfl
@[simp] theorem State.observeReg_mem : (s.observeReg r).mem = s.mem := rfl
@[simp] theorem State.observeReg_events : (s.observeReg r).events = s.events := rfl
@[simp] theorem State.observeReg_turns : (s.observeReg r).turns = s.turns := rfl
@[simp] theorem State.observeReg_observed :
    (s.observeReg r).observed = .reg r (s.readReg r) :: s.observed := rfl

end ObserveReg

section PoweredOn
variable (s : State)

@[simp] theorem State.poweredOn_platform : s.poweredOn.platform = s.platform := rfl
@[simp] theorem State.poweredOn_args : s.poweredOn.args = State.reset.args := rfl
@[simp] theorem State.poweredOn_err : s.poweredOn.err = 0 := rfl
@[simp] theorem State.poweredOn_running : s.poweredOn.running = none := rfl
@[simp] theorem State.poweredOn_engine : s.poweredOn.engine = Engine.init := rfl
@[simp] theorem State.poweredOn_mem : s.poweredOn.mem = s.mem := rfl
@[simp] theorem State.poweredOn_events : s.poweredOn.events = s.events := rfl
@[simp] theorem State.poweredOn_turns : s.poweredOn.turns = s.turns := rfl
@[simp] theorem State.poweredOn_observed : s.poweredOn.observed = s.observed := rfl

end PoweredOn

/-- R240: every error code is one of the five assigned ones. -/
theorem errCode_le_four (e : Err) : (errCode e).toNat ≤ 4 := by cases e <;> decide

/-- R240: distinct outcomes have distinct codes. -/
theorem errCode_injective {e e' : Err} (h : errCode e = errCode e') : e = e' := by
  cases e <;> cases e' <;> first | rfl | (revert h; decide)

theorem State.busy_iff (s : State) : s.busy = true ↔ ∃ r, s.running = some r := by
  simp [State.busy, Option.isSome_iff_exists]

theorem State.operands_of_running {s : State} {r : Running} (h : s.running = some r) : s.operands = r.ops := by
  simp [State.operands, h]

theorem Engine.sound_iff (e : Engine) :
    e.sound = true ↔ e.blen < 128 ∧ e.total.toNat % 128 = 0 ∧ (e.cor = true → e.fin = true) := by
  cases hc : e.cor <;> simp [Engine.sound, hc, and_assoc]

theorem Engine.init_sound : Engine.init.sound = true := by decide

end Sys2Proof.Machine
end

