-- ==== Sys2Proof/Laws/Memory.lean ====
section
/-! SUPPORT. The laws of host memory: what a write changes, that every operation keeps the canonical form, and what the
admission of a range says about its bytes. -/

namespace Sys2Proof.Machine

/-! ### The canonical form -/

theorem canonicalFrom_mono {lo lo' : Nat} {cells : List Host.Cell} (h : lo' ≤ lo)
    (hc : canonicalFrom lo cells = true) : canonicalFrom lo' cells = true := by
  cases cells with
  | nil => rfl
  | cons c rest =>
    obtain ⟨k, b⟩ := c
    simp only [canonicalFrom, Bool.and_eq_true, decide_eq_true_eq] at hc ⊢
    exact ⟨⟨by omega, hc.1.2⟩, hc.2⟩

theorem canonicalFrom_storeCell {a lo : Nat} {b : Byte} {cells : List Host.Cell} (ha : lo ≤ a)
    (hc : canonicalFrom lo cells = true) : canonicalFrom lo (storeCell a b cells) = true := by
  induction cells generalizing lo with
  | nil =>
    unfold storeCell
    split
    · rfl
    · simp_all [canonicalFrom]
  | cons c rest ih =>
    obtain ⟨k, c⟩ := c
    have hk := hc
    simp only [canonicalFrom, Bool.and_eq_true, decide_eq_true_eq] at hk
    obtain ⟨⟨hlo, hne⟩, hrest⟩ := hk
    unfold storeCell
    split
    · next hlt =>
      split
      · exact hc
      · next hb =>
        simp only [canonicalFrom, Bool.and_eq_true, decide_eq_true_eq]
        exact ⟨⟨ha, hb⟩, ⟨hlt, hne⟩, hrest⟩
    · next hge =>
      split
      · next heq =>
        subst heq
        split
        · exact canonicalFrom_mono (by omega) hrest
        · next hb =>
          simp only [canonicalFrom, Bool.and_eq_true, decide_eq_true_eq]
          exact ⟨⟨ha, hb⟩, hrest⟩
      · next hne' =>
        simp only [canonicalFrom, Bool.and_eq_true, decide_eq_true_eq]
        exact ⟨⟨hlo, hne⟩, ih (by omega) hrest⟩

/-- Every write keeps the canonical form. -/
theorem Memory.wf_write {m : Memory} (h : m.wf = true) (a : Nat) (b : Byte) : (m.write a b).wf = true :=
  canonicalFrom_storeCell (Nat.zero_le a) h

theorem Memory.wf_writeBytes {m : Memory} (h : m.wf = true) (a : Nat) (bs : List Byte) :
    (m.writeBytes a bs).wf = true := by
  induction bs generalizing m a with
  | nil => exact h
  | cons b rest ih => exact ih (m.wf_write h a b) (a + 1)

theorem cutShort_wf {p : Platform} {draw : Nat} {rs : List Range} {m : Memory} (h : m.wf = true) :
    (cutShort p draw m rs).wf = true := by
  induction rs generalizing m with
  | nil => exact h
  | cons r rest ih =>
    unfold cutShort
    split
    · exact ih (Memory.wf_writeBytes h _ _)
    · exact ih h

theorem State.reset_mem_wf : State.reset.mem.wf = true := rfl

/-! ### Reading after writing -/

theorem lookupCell_eq_unlisted {a lo : Nat} {cells : List Host.Cell} (ha : a < lo)
    (hc : canonicalFrom lo cells = true) : lookupCell a cells = unlistedByte := by
  induction cells generalizing lo with
  | nil => rfl
  | cons c rest ih =>
    obtain ⟨k, c⟩ := c
    simp only [canonicalFrom, Bool.and_eq_true, decide_eq_true_eq] at hc
    obtain ⟨⟨hlo, -⟩, hrest⟩ := hc
    have hne : a ≠ k := by omega
    simp only [lookupCell, hne, if_false]
    exact ih (by omega) hrest

theorem lookupCell_storeCell_same {a lo : Nat} {b : Byte} {cells : List Host.Cell}
    (hc : canonicalFrom lo cells = true) : lookupCell a (storeCell a b cells) = b := by
  induction cells generalizing lo with
  | nil =>
    unfold storeCell
    split
    · next h => simp [lookupCell, h]
    · simp [lookupCell]
  | cons c rest ih =>
    obtain ⟨k, c⟩ := c
    have hk := hc
    simp only [canonicalFrom, Bool.and_eq_true, decide_eq_true_eq] at hk
    obtain ⟨⟨hlo, hne⟩, hrest⟩ := hk
    unfold storeCell
    split
    · next hlt =>
      split
      · next hb =>
        have : a ≠ k := by omega
        simp only [lookupCell, this, if_false]
        rw [lookupCell_eq_unlisted (by omega) hrest, hb]
      · simp [lookupCell]
    · next hge =>
      split
      · next heq =>
        split
        · next hb =>
          rw [lookupCell_eq_unlisted (by omega) hrest, hb]
        · simp [lookupCell]
      · next hne' =>
        simp only [lookupCell, hne', if_false]
        exact ih hrest

theorem lookupCell_storeCell_other {a a' : Nat} {b : Byte} {cells : List Host.Cell} (h : a' ≠ a) :
    lookupCell a' (storeCell a b cells) = lookupCell a' cells := by
  induction cells with
  | nil =>
    unfold storeCell
    split
    · rfl
    · simp [lookupCell, h]
  | cons c rest ih =>
    obtain ⟨k, c⟩ := c
    unfold storeCell
    split
    · split
      · rfl
      · simp [lookupCell, h]
    · split
      · next heq =>
        subst heq
        split
        · simp [lookupCell, h]
        · simp [lookupCell, h]
      · simp only [lookupCell]
        split
        · rfl
        · exact ih

/-- R68: host memory holds what was last written to it. -/
theorem Memory.read_write_same {m : Memory} (h : m.wf = true) (a : Nat) (b : Byte) : (m.write a b).read a = b :=
  lookupCell_storeCell_same h

/-- A write leaves every other address alone. -/
theorem Memory.read_write_other (m : Memory) {a a' : Nat} (b : Byte) (h : a' ≠ a) :
    (m.write a b).read a' = m.read a' :=
  lookupCell_storeCell_other h

theorem Memory.read_writeBytes_outside (m : Memory) {a a' : Nat} (bs : List Byte)
    (h : a' < a ∨ a + bs.length ≤ a') : (m.writeBytes a bs).read a' = m.read a' := by
  induction bs generalizing m a with
  | nil => rfl
  | cons b rest ih =>
    simp only [List.length_cons] at h
    unfold Memory.writeBytes
    rw [ih (m.write a b) (by omega), Memory.read_write_other m b (by omega)]

@[simp] theorem Memory.length_readBytes (m : Memory) (a n : Nat) : (m.readBytes a n).length = n := by
  induction n generalizing a with
  | zero => rfl
  | succ n ih => simp [Memory.readBytes, ih]

@[simp] theorem Memory.length_readRange (m : Memory) (r : Range) : (m.readRange r).length = r.len :=
  m.length_readBytes _ _

/-- Byte i of MemRead(a, n) is the byte at a + i (R62(a)). -/
theorem Memory.getElem?_readBytes (m : Memory) {a n i : Nat} (h : i < n) :
    (m.readBytes a n)[i]? = some (m.read (a + i)) := by
  induction n generalizing a i with
  | zero => omega
  | succ n ih =>
    cases i with
    | zero => simp [Memory.readBytes]
    | succ i =>
      simp only [Memory.readBytes, List.getElem?_cons_succ]
      rw [ih (by omega)]
      congr 2
      omega

theorem Memory.readBytes_congr {m m' : Memory} {a n : Nat}
    (h : ∀ x, a ≤ x → x < a + n → m.read x = m'.read x) : m.readBytes a n = m'.readBytes a n := by
  induction n generalizing a with
  | zero => rfl
  | succ n ih =>
    simp only [Memory.readBytes]
    rw [h a (by omega) (by omega), ih (fun x hx hx' => h x (by omega) (by omega))]

theorem Memory.readBytes_append (m : Memory) (a n k : Nat) :
    m.readBytes a (n + k) = m.readBytes a n ++ m.readBytes (a + n) k := by
  induction n generalizing a with
  | zero => simp [Memory.readBytes]
  | succ n ih =>
    rw [show n + 1 + k = (n + k) + 1 by omega]
    simp only [Memory.readBytes, List.cons_append]
    rw [ih (a + 1), show a + 1 + n = a + (n + 1) by omega]

/-- R8: the bytes written by MemWrite read back as written. -/
theorem Memory.readBytes_writeBytes {m : Memory} (h : m.wf = true) (a : Nat) (bs : List Byte) :
    (m.writeBytes a bs).readBytes a bs.length = bs := by
  induction bs generalizing m a with
  | nil => rfl
  | cons b rest ih =>
    simp only [List.length_cons, Memory.readBytes, Memory.writeBytes]
    rw [ih (m.wf_write h a b), Memory.read_writeBytes_outside _ _ (by omega), m.read_write_same h]

/-! ### Bytes inside host memory -/

theorem storeCell_inside {a top : Nat} {b : Byte} {cells : List Host.Cell} (ha : a < top)
    (h : cells.all (fun c => decide (c.1 < top)) = true) :
    (storeCell a b cells).all (fun c => decide (c.1 < top)) = true := by
  induction cells with
  | nil =>
    unfold storeCell
    split
    · rfl
    · simp [ha]
  | cons c rest ih =>
    obtain ⟨k, c⟩ := c
    have hk := h
    simp only [List.all_cons, Bool.and_eq_true, decide_eq_true_eq] at hk
    unfold storeCell
    split
    · split
      · exact h
      · simp only [List.all_cons, Bool.and_eq_true, decide_eq_true_eq]
        exact ⟨ha, hk⟩
    · split
      · split
        · exact hk.2
        · simp only [List.all_cons, Bool.and_eq_true, decide_eq_true_eq]
          exact ⟨ha, hk.2⟩
      · simp only [List.all_cons, Bool.and_eq_true, decide_eq_true_eq]
        exact ⟨hk.1, ih hk.2⟩

theorem Memory.writeBytes_inside {m : Memory} {a top : Nat} {bs : List Byte} (ha : a + bs.length ≤ top)
    (h : m.cells.all (fun c => decide (c.1 < top)) = true) :
    (m.writeBytes a bs).cells.all (fun c => decide (c.1 < top)) = true := by
  induction bs generalizing m a with
  | nil => exact h
  | cons b rest ih =>
    simp only [List.length_cons] at ha
    exact ih (by omega) (storeCell_inside (by omega) h)

@[simp] theorem length_freeBytes (draw k n : Nat) : (freeBytes draw k n).length = n := by
  induction n generalizing k with
  | zero => rfl
  | succ n ih => simp [freeBytes, ih]

/-- Outside the ranges a command would have written, cutting it short changes nothing. -/
theorem cutShort_read_outside {p : Platform} {draw : Nat} {rs : List Range} {m : Memory} {a : Nat}
    (h : ∀ g ∈ rs, a < g.base ∨ g.base + g.len ≤ a) : (cutShort p draw m rs).read a = m.read a := by
  induction rs generalizing m with
  | nil => rfl
  | cons r rs ih =>
    unfold cutShort
    rw [ih (fun g hg => h g (List.mem_cons_of_mem _ hg))]
    split
    · exact Memory.read_writeBytes_outside _ _ (by simpa using h r List.mem_cons_self)
    · rfl

theorem cutShort_inside {p : Platform} {draw : Nat} {rs : List Range} {m : Memory}
    (h : m.cells.all (fun c => decide (c.1 < 2 ^ p.addrWidth)) = true) :
    (cutShort p draw m rs).cells.all (fun c => decide (c.1 < 2 ^ p.addrWidth)) = true := by
  induction rs generalizing m with
  | nil => exact h
  | cons r rest ih =>
    unfold cutShort
    split
    · next hr =>
      refine ih ?_
      simp only [Range.representable, Bool.or_eq_true, decide_eq_true_eq] at hr
      rcases hr with h0 | hle
      · simpa [h0, freeBytes, Memory.writeBytes] using h
      · exact Memory.writeBytes_inside (by simpa using hle) h
    · exact ih h

/-! ### Ranges -/

@[simp] theorem rangeOf_base (a n : Word) : (rangeOf a n).base = a.toNat := rfl
@[simp] theorem rangeOf_len (a n : Word) : (rangeOf a n).len = n.toNat := rfl
@[simp] theorem outRange_base (a : Word) : (outRange a).base = a.toNat := rfl
@[simp] theorem outRange_len (a : Word) : (outRange a).len = 64 := rfl

theorem Range.representable_iff {p : Platform} {r : Range} :
    r.representable p = true ↔ r.len = 0 ∨ r.base + r.len ≤ 2 ^ p.addrWidth := by
  simp [Range.representable]

theorem Range.not_representable_iff {p : Platform} {r : Range} :
    r.representable p = false ↔ r.len ≠ 0 ∧ 2 ^ p.addrWidth < r.base + r.len := by
  simp [Range.representable]

theorem outRange_representable_iff {p : Platform} {a : Word} :
    (outRange a).representable p = true ↔ a.toNat + 64 ≤ 2 ^ p.addrWidth := by
  rw [Range.representable_iff, outRange_base, outRange_len]
  omega

theorem outRange_not_representable_iff {p : Platform} {a : Word} :
    (outRange a).representable p = false ↔ 2 ^ p.addrWidth < a.toNat + 64 := by
  rw [Range.not_representable_iff, outRange_base, outRange_len]
  omega

theorem Range.holds_iff {r : Range} {a : Nat} : r.holds a = true ↔ r.base ≤ a ∧ a < r.base + r.len := by
  simp [Range.holds]

/-! ### Admission -/

theorem memAdmit_of_memOrdinary {p : Platform} {a : Nat} (h : memOrdinary p a = true) : memAdmit p a = true := by
  simp only [memOrdinary, decide_eq_true_eq] at h
  simp [memAdmit, h]

theorem memAdmitFrom_iff {p : Platform} {a n : Nat} :
    memAdmitFrom p a n = true ↔ ∀ i, i < n → memAdmit p (a + i) = true := by
  induction n generalizing a with
  | zero => simp [memAdmitFrom]
  | succ n ih =>
    simp only [memAdmitFrom, Bool.and_eq_true, ih]
    constructor
    · rintro ⟨h0, h⟩ i hi
      cases i with
      | zero => exact h0
      | succ i => simpa [Nat.add_assoc, Nat.add_comm 1] using h i (by omega)
    · intro h
      refine ⟨h 0 (by omega), fun i hi => ?_⟩
      simpa [Nat.add_assoc, Nat.add_comm 1] using h (i + 1) (by omega)

theorem memOrdinaryFrom_iff {p : Platform} {a n : Nat} :
    memOrdinaryFrom p a n = true ↔ ∀ i, i < n → memOrdinary p (a + i) = true := by
  induction n generalizing a with
  | zero => simp [memOrdinaryFrom]
  | succ n ih =>
    simp only [memOrdinaryFrom, Bool.and_eq_true, ih]
    constructor
    · rintro ⟨h0, h⟩ i hi
      cases i with
      | zero => exact h0
      | succ i => simpa [Nat.add_assoc, Nat.add_comm 1] using h i (by omega)
    · intro h
      refine ⟨h 0 (by omega), fun i hi => ?_⟩
      simpa [Nat.add_assoc, Nat.add_comm 1] using h (i + 1) (by omega)

theorem memAdmitFrom_of_memOrdinaryFrom {p : Platform} {a n : Nat}
    (h : memOrdinaryFrom p a n = true) : memAdmitFrom p a n = true :=
  memAdmitFrom_iff.mpr fun i hi => memAdmit_of_memOrdinary (memOrdinaryFrom_iff.mp h i hi)

/-- If an access answers a next state, every byte of its ranges is admitted ordinary memory, and the outcome is the
command's own. -/
theorem State.accessing_next {s : State} {ranges : List Range} {k : StepResult} {t : State}
    (h : s.accessing ranges k = .next t) : (∀ r ∈ ranges, s.reaches r = true) ∧ k = .next t := by
  unfold State.accessing at h
  split at h
  · split at h
    · next ho => exact ⟨List.all_eq_true.mp ho, h⟩
    · cases h
  · cases h

/-- Ranges of admitted ordinary memory are accessed. -/
theorem State.accessing_of_reaches {s : State} {ranges : List Range} {k : StepResult}
    (h : ∀ r ∈ ranges, s.reaches r = true) : s.accessing ranges k = k := by
  unfold State.accessing
  rw [if_pos, if_pos]
  · exact List.all_eq_true.mpr h
  · exact List.all_eq_true.mpr fun r hr => memAdmitFrom_of_memOrdinaryFrom (h r hr)

/-- A byte that is not admitted is a fault, whatever the command would do (R64). -/
theorem State.accessing_of_not_admitted {s : State} {ranges : List Range} {k : StepResult} {r : Range} {i : Nat}
    (hr : r ∈ ranges) (hi : i < r.len) (h : memAdmit s.platform (r.base + i) = false) :
    s.accessing ranges k = .fault .memoryNotAdmitted := by
  unfold State.accessing
  rw [if_neg]
  intro hall
  have := memAdmitFrom_iff.mp (List.all_eq_true.mp hall r hr) i hi
  simp [h] at this

/-- A byte with side effects, among admitted bytes, is refused (R68). -/
theorem State.accessing_of_sideEffects {s : State} {ranges : List Range} {k : StepResult} {r : Range} {i : Nat}
    (hall : ∀ r ∈ ranges, ∀ i, i < r.len → memAdmit s.platform (r.base + i) = true)
    (hr : r ∈ ranges) (hi : i < r.len) (h : memOrdinary s.platform (r.base + i) = false) :
    s.accessing ranges k = .refused .sideEffectMemory := by
  unfold State.accessing
  rw [if_pos, if_neg]
  · intro ho
    have := memOrdinaryFrom_iff.mp (List.all_eq_true.mp ho r hr) i hi
    simp [h] at this
  · exact List.all_eq_true.mpr fun r hr => memAdmitFrom_iff.mpr (hall r hr)

end Sys2Proof.Machine
end

