-- ==== Sys2Proof/Laws/Compression.lean ====
section
/-! SUPPORT. Lengths of the compression core's sequences, and that compressing blocks in sequence composes. -/

namespace Sys2Proof.Machine

@[simp] theorem length_beBytes (n v : Nat) : (beBytes n v).length = n := by
  induction n with
  | zero => rfl
  | succ n ih => simp [beBytes, ih]

/-- R142: Serialise(H) has 64 bytes. -/
@[simp] theorem length_serialise (h : Vector Word 8) : (serialise h).length = 64 := by
  simp [serialise, List.length_flatMap]

@[simp] theorem length_sha512 (s : List Byte) : (sha512 s).length = 64 := length_serialise _

@[simp] theorem length_hmacSha512 (key msg : List Byte) : (hmacSha512 key msg).length = 64 := length_sha512 _

@[simp] theorem length_unpackWords (n : Nat) (bs : List Byte) : (unpackWords n bs).length = n := by
  induction n generalizing bs with
  | zero => rfl
  | succ n ih => simp [unpackWords, ih]

@[simp] theorem length_extendSchedule (n : Nat) (ws : List Word) :
    (extendSchedule n ws).length = ws.length + n := by
  induction n generalizing ws with
  | zero => rfl
  | succ n ih => rw [extendSchedule, ih, List.length_append, List.length_singleton]; omega

/-- R182: the schedule has 80 words. -/
@[simp] theorem length_schedule (block : List Byte) : (schedule block).length = 80 := by simp [schedule]

/-- R179: the table has 80 constants. -/
@[simp] theorem length_roundConstants : roundConstants.length = 80 := by decide

/-- Extending a schedule keeps the words it has. -/
theorem getElem?_extendSchedule {n i : Nat} {ws : List Word} (h : i < ws.length) :
    (extendSchedule n ws)[i]? = ws[i]? := by
  induction n generalizing ws with
  | zero => rfl
  | succ n ih =>
    rw [extendSchedule, ih (by simp; omega), List.getElem?_append_left h]

/-- One block of Compress is one compression (R186). -/
theorem compress_one (h : Vector Word 8) (block : List Byte) (hb : block.length = 128) :
    compress h block 1 = compressBlock h block := by
  rw [compress, compress, List.take_of_length_le (by omega)]

@[simp] theorem compress_zero (h : Vector Word 8) (data : List Byte) : compress h data 0 = h := rfl

/-- R186: blocks are compressed in sequence, each output digest feeding the next. -/
theorem compress_append (h : Vector Word 8) (d d' : List Byte) (m n : Nat) (hd : d.length = 128 * m) :
    compress h (d ++ d') (m + n) = compress (compress h d m) d' n := by
  induction m generalizing h d with
  | zero =>
    have : d = [] := List.length_eq_zero_iff.mp (by omega)
    simp [this]
  | succ m ih =>
    rw [show m + 1 + n = (m + n) + 1 by omega, compress, compress,
      List.take_append_of_le_length (by omega), List.drop_append_of_le_length (by omega)]
    exact ih _ _ (by simp; omega)

/-- Compress looks only at the blocks it is told to. -/
theorem compress_take (h : Vector Word 8) (d : List Byte) (n : Nat) :
    compress h (d.take (128 * n)) n = compress h d n := by
  induction n generalizing h d with
  | zero => rfl
  | succ n ih =>
    rw [compress, compress, List.take_take, List.drop_take, min_eq_left (by omega),
      show 128 * (n + 1) - 128 = 128 * n by omega, ih]

end Sys2Proof.Machine
end

