-- ==== Sys2Proof/Laws/Engine.lean ====
section
/-! SUPPORT. The hash engine's operations: what absorbing a byte and a sequence of bytes does, and what finalizing does. -/

namespace Sys2Proof.Machine

@[simp] theorem Engine.absorb_nil (e : Engine) : e.absorb [] = e := rfl

@[simp] theorem Engine.absorb_cons (e : Engine) (b : Byte) (bs : List Byte) :
    e.absorb (b :: bs) = (e.absorbByte b).absorb bs := rfl

/-- R131: bytes absorbed in two goes are absorbed in order. -/
theorem Engine.absorb_append (e : Engine) (bs bs' : List Byte) :
    e.absorb (bs ++ bs') = (e.absorb bs).absorb bs' := by
  induction bs generalizing e with
  | nil => rfl
  | cons b rest ih => exact ih (e.absorbByte b)

@[simp] theorem Engine.absorbByte_fin (e : Engine) (b : Byte) : (e.absorbByte b).fin = e.fin := by
  unfold Engine.absorbByte; dsimp only; split <;> rfl

@[simp] theorem Engine.absorbByte_cor (e : Engine) (b : Byte) : (e.absorbByte b).cor = e.cor := by
  unfold Engine.absorbByte; dsimp only; split <;> rfl

@[simp] theorem Engine.absorb_fin (e : Engine) (bs : List Byte) : (e.absorb bs).fin = e.fin := by
  induction bs generalizing e with
  | nil => rfl
  | cons b rest ih => rw [absorb_cons, ih, absorbByte_fin]

@[simp] theorem Engine.absorb_cor (e : Engine) (bs : List Byte) : (e.absorb bs).cor = e.cor := by
  induction bs generalizing e with
  | nil => rfl
  | cons b rest ih => rw [absorb_cons, ih, absorbByte_cor]

/-- The buffered bytes, oldest first (R33). -/
def Engine.buffered (e : Engine) : List Byte := e.buf.toList.take e.blen

theorem Engine.length_buffered {e : Engine} (h : e.blen < 128) : e.buffered.length = e.blen := by
  simp [Engine.buffered]; omega

theorem take_set_succ {α : Type} (l : List α) (i : Nat) (x : α) (h : i < l.length) :
    (l.set i x).take (i + 1) = l.take i ++ [x] := by
  induction l generalizing i with
  | nil => simp at h
  | cons y l ih =>
    cases i with
    | zero => simp
    | succ i =>
      simp only [List.set_cons_succ, List.take_succ_cons, List.cons_append]
      rw [ih i (by simpa using h)]

theorem Engine.buf_set_take {e : Engine} (b : Byte) (h : e.blen < 128) :
    (e.buf.setIfInBounds e.blen b).toList.take (e.blen + 1) = e.buffered ++ [b] := by
  rw [Vector.toList_setIfInBounds, take_set_succ _ _ _ (by simp; omega)]
  rfl

/-- What absorbing one byte does (R130). -/
theorem Engine.absorbByte_cases (e : Engine) (b : Byte) (h : e.blen < 128) :
    (e.blen + 1 = 128 ∧ (e.absorbByte b).h = compress e.h (e.buffered ++ [b]) 1 ∧ (e.absorbByte b).blen = 0
      ∧ (e.absorbByte b).total = e.total + 128)
    ∨ (e.blen + 1 < 128 ∧ (e.absorbByte b).h = e.h ∧ (e.absorbByte b).blen = e.blen + 1
      ∧ (e.absorbByte b).total = e.total ∧ (e.absorbByte b).buffered = e.buffered ++ [b]) := by
  have hset := Engine.buf_set_take (e := e) b h
  by_cases hb : e.blen + 1 = 128
  · left
    unfold Engine.absorbByte
    rw [if_pos hb]
    rw [hb] at hset
    exact ⟨hb, by rw [← hset], rfl, rfl⟩
  · right
    unfold Engine.absorbByte
    rw [if_neg hb]
    exact ⟨by omega, rfl, rfl, rfl, hset⟩

/-- What absorbing a sequence of bytes does (R130, R131): with m the buffered bytes followed by the new ones, the whole blocks
of m are compressed in order, the rest of m is buffered, and TOTAL grows by the bytes compressed. -/
theorem Engine.absorb_blocks (e : Engine) (bs : List Byte) (h : e.blen < 128) :
    let m := e.buffered ++ bs
    (e.absorb bs).h = compress e.h m (m.length / 128)
      ∧ (e.absorb bs).blen = m.length % 128
      ∧ (e.absorb bs).buffered = m.drop (128 * (m.length / 128))
      ∧ (e.absorb bs).total = e.total + BitVec.ofNat 128 (128 * (m.length / 128)) := by
  induction bs generalizing e with
  | nil =>
    have hl := Engine.length_buffered h
    have hq : e.blen / 128 = 0 := by omega
    simp [hl, hq, Nat.mod_eq_of_lt h]
  | cons b rest ih =>
    intro m
    have hl := Engine.length_buffered h
    have hm : m = (e.buffered ++ [b]) ++ rest := by simp [m]
    rw [absorb_cons]
    rcases Engine.absorbByte_cases e b h with ⟨hb, hh, hblen, htot⟩ | ⟨hb, hh, hblen, htot, hbuf⟩
    · obtain ⟨i1, i2, i3, i4⟩ := ih (e.absorbByte b) (by omega)
      have hnil : (e.absorbByte b).buffered = [] := by simp [Engine.buffered, hblen]
      have hlen : (e.buffered ++ [b]).length = 128 := by simp [hl, hb]
      have hml : m.length = 128 + rest.length := by rw [hm, List.length_append, hlen]
      have hdiv : m.length / 128 = 1 + rest.length / 128 := by omega
      have hmod : m.length % 128 = rest.length % 128 := by omega
      simp only [hnil, List.nil_append] at i1 i2 i3 i4
      refine ⟨?_, by rw [i2, hmod], ?_, ?_⟩
      · rw [i1, hdiv, hm, compress_append _ _ _ 1 _ (by omega), hh]
      · rw [i3, hdiv, hm, Nat.mul_add, Nat.mul_one, ← List.drop_drop, List.drop_left' hlen]
      · rw [i4, htot, hdiv, Nat.mul_add, BitVec.ofNat_add, BitVec.add_assoc]
        rfl
    · obtain ⟨i1, i2, i3, i4⟩ := ih (e.absorbByte b) (by omega)
      rw [hbuf, ← hm] at i1 i2 i3 i4
      rw [hh] at i1
      rw [htot] at i4
      exact ⟨i1, i2, i3, i4⟩

/-- Absorbing keeps the engine's invariants (R38). -/
theorem Engine.absorb_sound {e : Engine} (h : e.sound = true) (bs : List Byte) : (e.absorb bs).sound = true := by
  rw [Engine.sound_iff] at h ⊢
  obtain ⟨hb, ht, hc⟩ := h
  obtain ⟨-, h2, -, h4⟩ := Engine.absorb_blocks e bs hb
  refine ⟨by rw [h2]; omega, ?_, by simpa using hc⟩
  rw [h4, BitVec.toNat_add, BitVec.toNat_ofNat]
  omega

@[simp] theorem Engine.finalize_blen (e : Engine) : e.finalize.blen = e.blen := rfl
@[simp] theorem Engine.finalize_total (e : Engine) : e.finalize.total = e.total := rfl
@[simp] theorem Engine.finalize_fin (e : Engine) : e.finalize.fin = true := rfl
@[simp] theorem Engine.finalize_cor (e : Engine) : e.finalize.cor = e.cor := rfl

theorem Engine.finalize_sound {e : Engine} (h : e.sound = true) : e.finalize.sound = true := by
  rw [Engine.sound_iff] at h ⊢
  exact ⟨h.1, h.2.1, fun _ => rfl⟩

/-- R140: the padded tail fills its blocks. -/
theorem Engine.length_padded {e : Engine} (h : e.blen < 128) : e.padded.length = 128 * finalBlocks e.blen := by
  have hl : (e.buf.toList.take e.blen).length = e.blen := Engine.length_buffered h
  simp only [Engine.padded, List.length_append, hl, List.length_singleton, List.length_replicate, length_beBytes,
    finalBlocks]
  split <;> omega

/-- Filling BUF from index i on: what was below i stays, and the bytes stand where they were put. -/
theorem fillBuf_toList (buf : Vector Byte 256) (i : Nat) (bs : List Byte) (h : i + bs.length ≤ 256) :
    (fillBuf buf i bs).toList = buf.toList.take i ++ bs ++ buf.toList.drop (i + bs.length) := by
  induction bs generalizing buf i with
  | nil => simp [fillBuf]
  | cons b rest ih =>
    simp only [List.length_cons] at h
    rw [fillBuf, ih _ _ (by omega), Vector.toList_setIfInBounds, take_set_succ _ _ _ (by simp; omega),
      List.drop_set_of_lt (by omega)]
    rw [List.length_cons, show i + 1 + rest.length = i + (rest.length + 1) by omega]
    simp [List.append_assoc]

end Sys2Proof.Machine
end

