-- ==== Sys2Proof/Laws/Commands.lean ====
section
/-! SUPPORT. Each command said once: everything it can do when it answers a next state, and when it does so. -/

namespace Sys2Proof.Machine

/-! ### RESET -/

@[simp] theorem execReset_eq (s : State) : execReset s = .next (State.finish { s with engine := Engine.init } .ok) :=
  rfl

/-! ### INPUT -/

/-- The state INPUT leaves when it absorbs. -/
def State.afterInput (s : State) : State :=
  State.finish
    ({ s with engine := s.engine.absorb (s.mem.readRange s.operands.inputRange) }.leaveDatapath
      (s.engine.absorbBlocks s.operands.inputRange.len)) .ok

theorem execInput_of_wraps {s : State} (h : s.operands.inputRange.representable s.platform = false) :
    execInput s = .next (s.finish .invalidArgument) := by
  simp only [execInput, State.raise, h, if_true]

theorem execInput_of_fin {s : State} (h : s.operands.inputRange.representable s.platform = true)
    (hf : s.engine.fin = true) :
    execInput s = .next (State.finish { s with engine := { s.engine with cor := true } } .alreadyFinalized) := by
  simp only [execInput, State.raise, h, hf, if_true, Bool.true_eq_false, if_false]

theorem execInput_accesses {s : State} (h : s.operands.inputRange.representable s.platform = true)
    (hf : s.engine.fin = false) : execInput s = s.accessing [s.operands.inputRange] (.next s.afterInput) := by
  simp only [execInput, State.complete, State.afterInput, h, hf, Bool.true_eq_false, Bool.false_eq_true, if_false]

theorem execInput_of_runs {s : State} (h : s.InputRuns) : execInput s = .next s.afterInput := by
  rw [execInput_accesses h.1 h.2.1, State.accessing_of_reaches (by simpa using h.2.2)]

/-- Everything INPUT can do (R130, R132). -/
theorem execInput_next {s t : State} (h : execInput s = .next t) :
    (s.operands.inputRange.representable s.platform = false ∧ t = s.finish .invalidArgument)
    ∨ (s.operands.inputRange.representable s.platform = true ∧ s.engine.fin = true
      ∧ t = State.finish { s with engine := { s.engine with cor := true } } .alreadyFinalized)
    ∨ (s.InputRuns ∧ t = s.afterInput) := by
  cases hr : s.operands.inputRange.representable s.platform with
  | false =>
    rw [execInput_of_wraps hr] at h
    exact .inl ⟨rfl, (Host.Outcome.next.inj h).symm⟩
  | true =>
    cases hf : s.engine.fin with
    | true =>
      rw [execInput_of_fin hr hf] at h
      exact .inr (.inl ⟨rfl, rfl, (Host.Outcome.next.inj h).symm⟩)
    | false =>
      rw [execInput_accesses hr hf] at h
      obtain ⟨ho, hk⟩ := State.accessing_next h
      exact .inr (.inr ⟨⟨hr, hf, by simpa using ho⟩, (Host.Outcome.next.inj hk).symm⟩)

/-! ### RESULT -/

/-- The engine whose digest RESULT writes: finalized now, if it was not before. -/
def Engine.forResult (e : Engine) : Engine := if e.fin then e else e.finalize

/-- The state RESULT leaves when it writes the digest. -/
def State.afterResult (s : State) : State :=
  State.finish
    ({ s with
        engine := s.engine.forResult
        mem := s.mem.writeBytes s.operands.resultRange.base (serialise s.engine.forResult.h) }.leaveDatapath
      (if s.engine.fin then 0 else finalBlocks s.engine.blen)) .ok

theorem execResult_of_wraps {s : State} (h : s.operands.resultRange.representable s.platform = false) :
    execResult s = .next (s.finish .invalidArgument) := by
  simp only [execResult, State.raise, h, if_true]

theorem execResult_of_cor {s : State} (h : s.operands.resultRange.representable s.platform = true)
    (hc : s.engine.cor = true) : execResult s = .next (s.finish .corrupted) := by
  simp only [execResult, State.raise, h, hc, if_true, Bool.true_eq_false, if_false]

theorem execResult_accesses {s : State} (h : s.operands.resultRange.representable s.platform = true)
    (hc : s.engine.cor = false) : execResult s = s.accessing [s.operands.resultRange] (.next s.afterResult) := by
  simp only [execResult, State.complete, State.afterResult, Engine.forResult, h, hc, Bool.true_eq_false,
    Bool.false_eq_true, if_false]

theorem execResult_of_runs {s : State} (h : s.ResultRuns) : execResult s = .next s.afterResult := by
  rw [execResult_accesses h.1 h.2.1, State.accessing_of_reaches (by simpa using h.2.2)]

/-- Everything RESULT can do (R141). -/
theorem execResult_next {s t : State} (h : execResult s = .next t) :
    (s.operands.resultRange.representable s.platform = false ∧ t = s.finish .invalidArgument)
    ∨ (s.operands.resultRange.representable s.platform = true ∧ s.engine.cor = true ∧ t = s.finish .corrupted)
    ∨ (s.ResultRuns ∧ t = s.afterResult) := by
  cases hr : s.operands.resultRange.representable s.platform with
  | false =>
    rw [execResult_of_wraps hr] at h
    exact .inl ⟨rfl, (Host.Outcome.next.inj h).symm⟩
  | true =>
    cases hc : s.engine.cor with
    | true =>
      rw [execResult_of_cor hr hc] at h
      exact .inr (.inl ⟨rfl, rfl, (Host.Outcome.next.inj h).symm⟩)
    | false =>
      rw [execResult_accesses hr hc] at h
      obtain ⟨ho, hk⟩ := State.accessing_next h
      exact .inr (.inr ⟨⟨hr, hc, by simpa using ho⟩, (Host.Outcome.next.inj hk).symm⟩)

/-! ### HMAC -/

/-- The state HMAC leaves when it writes the code. -/
def State.afterHmac (s : State) : State :=
  State.finish
    ({ s with
        mem := s.mem.writeBytes s.operands.hmacRange.base
          (hmacSha512 (s.mem.readRange s.operands.keyRange)
            (s.mem.readRange s.operands.messageRange)) }.leaveDatapath 1) .ok

theorem execHmac_of_wraps {s : State}
    (h : s.operands.messageRange.representable s.platform = false
      ∨ s.operands.keyRange.representable s.platform = false
      ∨ s.operands.hmacRange.representable s.platform = false) :
    execHmac s = .next (s.finish .invalidArgument) := by
  simp only [execHmac, State.raise]
  split
  · rfl
  · split
    · rfl
    · rw [if_pos (by tauto)]

theorem execHmac_accesses {s : State} (hm : s.operands.messageRange.representable s.platform = true)
    (hk : s.operands.keyRange.representable s.platform = true)
    (ho : s.operands.hmacRange.representable s.platform = true) :
    execHmac s = s.accessing [s.operands.messageRange, s.operands.keyRange, s.operands.hmacRange]
      (.next s.afterHmac) := by
  simp only [execHmac, State.complete, State.afterHmac, hm, hk, ho, Bool.true_eq_false, if_false]

theorem execHmac_of_runs {s : State} (h : s.HmacRuns) : execHmac s = .next s.afterHmac := by
  obtain ⟨hm, hk, ho, rm, rk, ro⟩ := h
  rw [execHmac_accesses hm hk ho, State.accessing_of_reaches]
  simp only [List.mem_cons, List.not_mem_nil, or_false]
  rintro r (rfl | rfl | rfl) <;> assumption

/-- Everything HMAC can do (R210). -/
theorem execHmac_next {s t : State} (h : execHmac s = .next t) :
    ((s.operands.messageRange.representable s.platform = false
      ∨ s.operands.keyRange.representable s.platform = false
      ∨ s.operands.hmacRange.representable s.platform = false) ∧ t = s.finish .invalidArgument)
    ∨ (s.HmacRuns ∧ t = s.afterHmac) := by
  by_cases hw : s.operands.messageRange.representable s.platform = false
      ∨ s.operands.keyRange.representable s.platform = false
      ∨ s.operands.hmacRange.representable s.platform = false
  · rw [execHmac_of_wraps hw] at h
    exact .inl ⟨hw, (Host.Outcome.next.inj h).symm⟩
  · simp only [not_or, Bool.not_eq_false] at hw
    obtain ⟨hm, hk, ho⟩ := hw
    rw [execHmac_accesses hm hk ho] at h
    obtain ⟨hr, hk'⟩ := State.accessing_next h
    simp only [List.mem_cons, List.not_mem_nil, or_false, forall_eq_or_imp, forall_eq] at hr
    exact .inr ⟨⟨hm, hk, ho, hr.1, hr.2.1, hr.2.2⟩, (Host.Outcome.next.inj hk').symm⟩

/-! ### All four -/

section After
variable (s : State)

@[simp] theorem State.afterInput_platform : s.afterInput.platform = s.platform := by simp [State.afterInput]
@[simp] theorem State.afterInput_args : s.afterInput.args = s.args := by simp [State.afterInput]
@[simp] theorem State.afterInput_err : s.afterInput.err = 0 := rfl
@[simp] theorem State.afterInput_running : s.afterInput.running = none := rfl
@[simp] theorem State.afterInput_engine :
    s.afterInput.engine = s.engine.absorb (s.mem.readRange s.operands.inputRange) := by simp [State.afterInput]
@[simp] theorem State.afterInput_mem : s.afterInput.mem = s.mem := by simp [State.afterInput]
@[simp] theorem State.afterInput_events : s.afterInput.events = s.events := by simp [State.afterInput]
@[simp] theorem State.afterInput_turns : s.afterInput.turns = s.turns := by simp [State.afterInput]
@[simp] theorem State.afterInput_observed : s.afterInput.observed = s.observed := by simp [State.afterInput]

@[simp] theorem State.afterResult_platform : s.afterResult.platform = s.platform := by simp [State.afterResult]
@[simp] theorem State.afterResult_args : s.afterResult.args = s.args := by simp [State.afterResult]
@[simp] theorem State.afterResult_err : s.afterResult.err = 0 := rfl
@[simp] theorem State.afterResult_running : s.afterResult.running = none := rfl
@[simp] theorem State.afterResult_engine : s.afterResult.engine = s.engine.forResult := by
  simp [State.afterResult]
@[simp] theorem State.afterResult_mem :
    s.afterResult.mem
      = s.mem.writeBytes s.operands.resultRange.base (serialise s.engine.forResult.h) := by
  simp [State.afterResult]
@[simp] theorem State.afterResult_events : s.afterResult.events = s.events := by simp [State.afterResult]
@[simp] theorem State.afterResult_turns : s.afterResult.turns = s.turns := by simp [State.afterResult]
@[simp] theorem State.afterResult_observed : s.afterResult.observed = s.observed := by simp [State.afterResult]

@[simp] theorem State.afterHmac_platform : s.afterHmac.platform = s.platform := by simp [State.afterHmac]
@[simp] theorem State.afterHmac_args : s.afterHmac.args = s.args := by simp [State.afterHmac]
@[simp] theorem State.afterHmac_err : s.afterHmac.err = 0 := rfl
@[simp] theorem State.afterHmac_running : s.afterHmac.running = none := rfl
@[simp] theorem State.afterHmac_engine : s.afterHmac.engine = s.engine := by simp [State.afterHmac]
@[simp] theorem State.afterHmac_mem :
    s.afterHmac.mem
      = s.mem.writeBytes s.operands.hmacRange.base
          (hmacSha512 (s.mem.readRange s.operands.keyRange) (s.mem.readRange s.operands.messageRange)) := by
  simp [State.afterHmac]
@[simp] theorem State.afterHmac_events : s.afterHmac.events = s.events := by simp [State.afterHmac]
@[simp] theorem State.afterHmac_turns : s.afterHmac.turns = s.turns := by simp [State.afterHmac]
@[simp] theorem State.afterHmac_observed : s.afterHmac.observed = s.observed := by simp [State.afterHmac]

end After

theorem Engine.forResult_sound {e : Engine} (h : e.sound = true) : e.forResult.sound = true := by
  unfold Engine.forResult
  split
  · exact h
  · exact Engine.finalize_sound h

/-- Everything a command can do when it answers a next state: it reports an error and changes nothing but ERR, BUSY and, for
INPUT after finalization, COR (R241); or it takes its whole effect and reports OK. -/
theorem exec_next {i : Instr} {s t : State} (h : exec i s = .next t) :
    (∃ e, e ≠ .ok ∧ t = s.finish e)
    ∨ (i = .input ∧ s.engine.fin = true
      ∧ t = State.finish { s with engine := { s.engine with cor := true } } .alreadyFinalized)
    ∨ (i = .reset ∧ t = State.finish { s with engine := Engine.init } .ok)
    ∨ (i = .input ∧ s.InputRuns ∧ t = s.afterInput)
    ∨ (i = .result ∧ s.ResultRuns ∧ t = s.afterResult)
    ∨ (i = .hmac ∧ s.HmacRuns ∧ t = s.afterHmac) := by
  cases i with
  | reset => exact .inr (.inr (.inl ⟨rfl, (Host.Outcome.next.inj h).symm⟩))
  | input =>
    rcases execInput_next h with ⟨-, ht⟩ | ⟨-, hf, ht⟩ | ⟨hr, ht⟩
    · exact .inl ⟨_, by decide, ht⟩
    · exact .inr (.inl ⟨rfl, hf, ht⟩)
    · exact .inr (.inr (.inr (.inl ⟨rfl, hr, ht⟩)))
  | result =>
    rcases execResult_next h with ⟨-, ht⟩ | ⟨-, -, ht⟩ | ⟨hr, ht⟩
    · exact .inl ⟨_, by decide, ht⟩
    · exact .inl ⟨_, by decide, ht⟩
    · exact .inr (.inr (.inr (.inr (.inl ⟨rfl, hr, ht⟩))))
  | hmac =>
    rcases execHmac_next h with ⟨-, ht⟩ | ⟨hr, ht⟩
    · exact .inl ⟨_, by decide, ht⟩
    · exact .inr (.inr (.inr (.inr (.inr ⟨rfl, hr, ht⟩))))

end Sys2Proof.Machine
end

