-- ==== Sys2Proof/Laws/Step.lean ====
section
/-! SUPPORT. The step said once: everything a turn of CORE and a turn of HOST can do when it answers a next state. -/

namespace Sys2Proof.Machine

theorem decode_encode_eq (i : Instr) : decode (encode i) = .instr i := by cases i <;> decide

/-- CORE's turn with a command in flight. -/
theorem coreStep_of_instr {s : State} {r : Running} {i : Instr} (hr : s.running = some r)
    (hd : decode r.word = .instr i) : coreStep s = exec i s := by
  simp only [coreStep, hr, hd]

theorem coreStep_of_illegal {s : State} {r : Running} {why : DecodeReject} (hr : s.running = some r)
    (hd : decode r.word = .illegal why) : coreStep s = .next (s.finish .illegalCommand) := by
  simp only [coreStep, hr, hd, State.raise]

theorem coreStep_of_idle {s : State} (hr : s.running = none) : coreStep s = .next s := by
  simp only [coreStep, hr]

/-- Everything CORE's turn can do. -/
theorem coreStep_next {s t : State} (h : coreStep s = .next t) :
    (s.running = none ∧ t = s)
    ∨ (∃ r why, s.running = some r ∧ decode r.word = .illegal why ∧ t = s.finish .illegalCommand)
    ∨ (∃ r i, s.running = some r ∧ decode r.word = .instr i ∧ exec i s = .next t) := by
  cases hr : s.running with
  | none =>
    rw [coreStep_of_idle hr] at h
    exact .inl ⟨rfl, (Host.Outcome.next.inj h).symm⟩
  | some r =>
    cases hd : decode r.word with
    | illegal why =>
      rw [coreStep_of_illegal hr hd] at h
      exact .inr (.inl ⟨r, why, rfl, hd, (Host.Outcome.next.inj h).symm⟩)
    | instr i =>
      rw [coreStep_of_instr hr hd] at h
      exact .inr (.inr ⟨r, i, rfl, hd, h⟩)

/-- A range the running command would write is one that the accepted word names, representable and admitted ordinary memory. -/
theorem State.mem_landing {s : State} {g : Range} (h : g ∈ s.landing) :
    g ∈ s.runningWrites ∧ g.representable s.platform = true ∧ s.reaches g = true := by
  unfold State.landing at h
  split at h
  · cases h
  · next r hr =>
    split at h
    · cases h
    · next i hd =>
      split at h
      · next t ht =>
        split at h
        · next he =>
          have hw : s.runningWrites = writeRanges i r.ops := by simp only [State.runningWrites, hr, hd]
          rw [hw]
          have ho : s.operands = r.ops := State.operands_of_running hr
          refine ⟨h, ?_⟩
          rcases exec_next ht with ⟨e, hne, rfl⟩ | ⟨rfl, -, rfl⟩ | ⟨rfl, rfl⟩ | ⟨rfl, -, rfl⟩ | ⟨rfl, hw, rfl⟩ | ⟨rfl, hw, rfl⟩
          · exact absurd (errCode_injective he) hne
          · cases h
          · cases h
          · cases h
          · obtain rfl := List.mem_singleton.mp h
            rw [← ho]
            exact ⟨hw.1, hw.2.2⟩
          · obtain rfl := List.mem_singleton.mp h
            rw [← ho]
            exact ⟨hw.2.2.1, hw.2.2.2.2.2⟩
        · cases h
      · cases h
      · cases h

theorem State.landing_of_idle {s : State} (hr : s.running = none) : s.landing = [] := by
  simp only [State.landing, hr]

/-- A command that raises an error or stops would write nothing. -/
theorem State.landing_of_no_effect {s : State} {r : Running} {i : Instr} (hr : s.running = some r)
    (hd : decode r.word = .instr i) (h : ∀ t, exec i s = .next t → t.err ≠ 0x00) : s.landing = [] := by
  simp only [State.landing, hr, hd]
  split
  · next t ht => exact if_neg (h t ht)
  · rfl
  · rfl

theorem State.hostAccess_next {s t : State} {a : Nat} {k : StepResult} (h : s.hostAccess a k = .next t) :
    a < 2 ^ s.platform.addrWidth ∧ memOrdinary s.platform a = true ∧ k = .next t := by
  unfold State.hostAccess at h
  split at h
  · next ha =>
    obtain ⟨ho, hk⟩ := State.accessing_next h
    refine ⟨ha, ?_, hk⟩
    have := ho _ (List.mem_singleton.mpr rfl)
    simpa using memOrdinaryFrom_iff.mp this 0 (by simp)
  · cases h

/-- Everything an action of the outside world can do. -/
theorem externalEvent_next {s t : State} {e : ExternalEvent} (h : externalEvent s e = .next t) :
    (∃ addr width v r, e = .regWrite addr width v ∧ regAccessed s.platform addr width = some r
      ∧ s.busy = false ∧ t = s.writeReg r v)
    ∨ (∃ addr width r, e = .regRead addr width ∧ regAccessed s.platform addr width = some r ∧ t = s.observeReg r)
    ∨ (e = .poll ∧ s.busy = true ∧ t = { s.observeReg .status with events := .poll :: s.events })
    ∨ (e = .poll ∧ s.busy = false ∧ t = s.observeReg .status)
    ∨ (∃ a b, e = .memWrite a b ∧ a < 2 ^ s.platform.addrWidth
      ∧ (s.runningReads ++ s.runningWrites).any (fun r => r.holds a) = false
      ∧ t = { s with mem := s.mem.write a b })
    ∨ (∃ a, e = .memRead a ∧ s.runningWrites.any (fun r => r.holds a) = true
      ∧ t = { s with observed := .mem a (Config.freeByte s.draws 0) :: s.observed, draws := s.draws + 1 })
    ∨ (∃ a, e = .memRead a ∧ s.runningWrites.any (fun r => r.holds a) = false
      ∧ t = { s with observed := .mem a (s.mem.read a) :: s.observed })
    ∨ (e = .powerOnReset
      ∧ t = { s.poweredOn with mem := cutShort s.platform s.draws s.mem s.landing }) := by
  cases e with
  | regWrite addr width v =>
    simp only [externalEvent, hostRegWrite] at h
    split at h
    · cases h
    · next r hr =>
      split at h
      · cases h
      · next hb =>
        exact .inl ⟨addr, width, v, r, rfl, hr, by simpa using hb, (Host.Outcome.next.inj h).symm⟩
  | regRead addr width =>
    simp only [externalEvent, hostRegRead] at h
    split at h
    · cases h
    · next r hr => exact .inr (.inl ⟨addr, width, r, rfl, hr, (Host.Outcome.next.inj h).symm⟩)
  | poll =>
    simp only [externalEvent, hostPoll, Host.Outcome.next.injEq] at h
    split at h
    · next hb => exact .inr (.inr (.inl ⟨rfl, hb, h.symm⟩))
    · next hb => exact .inr (.inr (.inr (.inl ⟨rfl, by simpa using hb, h.symm⟩)))
  | memWrite a b =>
    simp only [externalEvent, hostMemWrite] at h
    obtain ⟨ha, -, hk⟩ := State.hostAccess_next h
    split at hk
    · cases hk
    · next hn =>
      exact .inr (.inr (.inr (.inr (.inl
        ⟨a, b, rfl, ha, by simpa only [Bool.not_eq_true] using hn, (Host.Outcome.next.inj hk).symm⟩))))
  | memRead a =>
    simp only [externalEvent, hostMemRead] at h
    obtain ⟨-, -, hk⟩ := State.hostAccess_next h
    split at hk
    · next hw =>
      exact .inr (.inr (.inr (.inr (.inr (.inl ⟨a, rfl, hw, (Host.Outcome.next.inj hk).symm⟩)))))
    · next hw =>
      exact .inr (.inr (.inr (.inr (.inr (.inr (.inl
        ⟨a, rfl, by simpa only [Bool.not_eq_true] using hw, (Host.Outcome.next.inj hk).symm⟩))))))
  | powerOnReset =>
    exact .inr (.inr (.inr (.inr (.inr (.inr (.inr ⟨rfl, (Host.Outcome.next.inj h).symm⟩))))))

/-- Everything HOST's turn can do. -/
theorem hostStep_next {s t : State} (h : hostStep s = .next t) :
    (s.events = [] ∧ t = s)
    ∨ (∃ e rest, s.events = e :: rest ∧ externalEvent (s.dropEvent rest) e = .next t) := by
  unfold hostStep at h
  split at h
  · next he => exact .inl ⟨he, (Host.Outcome.next.inj h).symm⟩
  · next e rest he => exact .inr ⟨e, rest, he, h⟩

/-- R20: the access at a register's address names that register. -/
theorem regAccessed_regAddr (p : Platform) (r : Reg) : regAccessed p (p.regBase + r.offset) 8 = some r := by
  cases r <;> simp [regAccessed, Reg.offset, regAtOffset]

/-- R29: an access that names a register has its width and its address. -/
theorem regAccessed_eq_some {p : Platform} {addr width : Nat} {r : Reg} (h : regAccessed p addr width = some r) :
    width = 8 ∧ addr = p.regBase + r.offset := by
  unfold regAccessed at h
  split at h
  · next hc =>
    refine ⟨hc.1, ?_⟩
    unfold regAtOffset at h
    repeat' split at h
    all_goals first | (cases h; simp only [Reg.offset]; omega) | cases h
  · cases h

theorem step_of_core {s : State} (hs : s.engine.sound = true) (ha : s.nextAgent = .core) :
    step s = coreStep s.takeTurn := by
  simp only [step, turn, hs, ha, if_true]

theorem step_of_host {s : State} (hs : s.engine.sound = true) (ha : s.nextAgent = .host) :
    step s = hostStep s.takeTurn := by
  simp only [step, turn, hs, ha, if_true]

/-- A step in which the outside world acts is that action. -/
theorem step_of_action {s : State} {e : ExternalEvent} {rest : List ExternalEvent} (h : s.actsNow e rest) :
    step s = externalEvent (s.afterAction rest) e := by
  obtain ⟨hs, ha, he⟩ := h
  rw [step_of_host hs ha]
  unfold hostStep
  rw [State.takeTurn_events, he]
  rfl

/-- HOST's write of a register while BUSY = 0. -/
theorem step_of_regWrite {s : State} {r : Reg} {v : Word} {rest : List ExternalEvent}
    (h : s.actsNow (.regWrite (s.platform.regBase + r.offset) 8 v) rest) (hb : s.busy = false) :
    step s = .next ((s.afterAction rest).writeReg r v) := by
  simp [step_of_action h, externalEvent, hostRegWrite, regAccessed_regAddr, hb]

/-- HOST's read of a register. -/
theorem step_of_regRead {s : State} {r : Reg} {rest : List ExternalEvent}
    (h : s.actsNow (.regRead (s.platform.regBase + r.offset) 8) rest) :
    step s = .next ((s.afterAction rest).observeReg r) := by
  simp [step_of_action h, externalEvent, hostRegRead, regAccessed_regAddr]

/-- R38: a state that breaks an invariant faults. -/
theorem step_of_unsound {s : State} (hs : s.engine.sound = false) : step s = .fault .invariantBroken := by
  simp only [step, turn, hs, Bool.false_eq_true, if_false]

/-- Everything a step can do when it answers a next state. -/
theorem step_next {s t : State} (h : step s = .next t) :
    s.engine.sound = true
      ∧ ((s.nextAgent = .core ∧ coreStep s.takeTurn = .next t)
        ∨ (s.nextAgent = .host ∧ hostStep s.takeTurn = .next t)) := by
  cases hs : s.engine.sound with
  | false => rw [step_of_unsound hs] at h; cases h
  | true =>
    refine ⟨rfl, ?_⟩
    cases ha : s.nextAgent with
    | core => exact .inl ⟨rfl, by rwa [step_of_core hs ha] at h⟩
    | host => exact .inr ⟨rfl, by rwa [step_of_host hs ha] at h⟩

/-- A sequence of commands whose first answers a next state goes on from that state. -/
theorem runCommands_cons {i : Instr} {op : Args} {rest : List (Instr × Args)} {s t : State}
    (h : runCommand i op s = .next t) : runCommands ((i, op) :: rest) s = runCommands rest t := by
  simp only [runCommands, h]

end Sys2Proof.Machine
end

