-- ==== Sys2Proof/Laws/PerInstr.lean ====
section
/-! SUPPORT. The statements made per instruction: family Encoding, each command's word. -/

namespace Sys2Proof.Laws.Encoding

/-- R91 to R94: the command is well formed, its word has RSVD = 0 and an assigned OPC, and decoding its word gives it back. -/
def Statement (i : Instr) : Prop :=
  i.wellFormed = true ∧ (fieldsOfWord (encode i)).wellFormed = true ∧ decode (encode i) = .instr i

theorem reset : Statement .reset := ⟨rfl, by decide, by decide⟩

theorem input : Statement .input := ⟨rfl, by decide, by decide⟩

theorem result : Statement .result := ⟨rfl, by decide, by decide⟩

theorem hmac : Statement .hmac := ⟨rfl, by decide, by decide⟩

end Sys2Proof.Laws.Encoding
end

