-- ==== Sys2Proof/Tests/Slice0.lean ====
section
/-! SUPPORT. Tests with expected values from spec/95_test_vectors.md and from the rules' own tables and examples, and, for every
obligation with hypotheses, a theorem that shows concrete states and operands that meet them. -/

namespace Sys2Proof.Tests

set_option Elab.async false

open Sys2Proof Sys2Proof.Machine

/-! ### Helpers -/

/-- Reset, with these bytes in host memory from an address on. -/
def loaded (a : Nat) (bs : List Byte) : State :=
  { State.reset with mem := (⟨[]⟩ : Memory).writeBytes a bs }

/-- The state in which a command word has been accepted with the operands `op`, which the ARG registers hold too. -/
def issued (w : Word) (op : Args) (s : State) : State :=
  { s with args := op, running := some { word := w, ops := op } }

/-- The state in which HOST's next action, and its only one, is `e`, and it is HOST's turn. -/
def acting (e : ExternalEvent) (s : State) : State :=
  { s with events := [e], turns := [.host] }

/-- A state whose engine has these flags and this buffered length. -/
def flagged (fin cor : Bool) (blen : Nat) : State :=
  { State.reset with engine := { Engine.init with fin := fin, cor := cor, blen := blen } }

/-- A platform with a window at 0x8000, 64 bytes of ordinary memory at 0x1000, a FIFO at 0x2000, and nothing else. -/
def smallPlatform : Platform :=
  { addrWidth := 16, regBase := 0x8000, regions := [⟨0x1000, 64, .ordinary⟩, ⟨0x2000, 64, .sideEffects⟩] }

/-- Reset on the small platform. -/
def small : State := { State.reset with platform := smallPlatform }

/-- The operands of HMAC. -/
def hmacOperands (base blen key klen out : Word) : Args :=
  { arg0 := base, arg1 := blen, arg2 := key, arg3 := klen, arg4 := out }

/-- Whether an outcome is a next state with a decidable property. -/
def answers (o : StepResult) (P : State → Prop) [DecidablePred P] : Bool :=
  match o with
  | .next t => decide (P t)
  | .fault _ => false
  | .refused _ => false

theorem exists_of_answers {o : StepResult} (P : State → Prop) [DecidablePred P] (h : answers o P = true) :
    ∃ t, o = .next t ∧ P t := by
  cases o with
  | next t => exact ⟨t, rfl, of_decide_eq_true h⟩
  | fault f => exact absurd h Bool.false_ne_true
  | refused r => exact absurd h Bool.false_ne_true

/-- Whether an outcome is this fault. -/
def faults (o : StepResult) (f : Fault) : Bool :=
  match o with
  | .next _ => false
  | .fault g => decide (g = f)
  | .refused _ => false

/-- Whether an outcome is this refusal. -/
def refuses (o : StepResult) (r : Refusal) : Bool :=
  match o with
  | .next _ => false
  | .fault _ => false
  | .refused q => decide (q = r)

/-! ### Decoding: words written out from R91 and R93 (RSVD in bits 63:8, OPC in bits 7:0) -/

theorem test_decode_RESET : decode (0x00000000000000#56 ++ 0b00000001#8) = .instr .reset := by decide
theorem test_decode_INPUT : decode (0x00000000000000#56 ++ 0b00000010#8) = .instr .input := by decide
theorem test_decode_RESULT : decode (0x00000000000000#56 ++ 0b00000011#8) = .instr .result := by decide
theorem test_decode_HMAC : decode (0x00000000000000#56 ++ 0b00000100#8) = .instr .hmac := by decide

/-- R94, §3.7: an unassigned OPC, the lowest, the first above HMAC, and the highest. -/
theorem test_decode_unassigned :
    decode (0x00000000000000#56 ++ 0b00000000#8) = .illegal .unassignedOpcode
    ∧ decode (0x00000000000000#56 ++ 0b00000101#8) = .illegal .unassignedOpcode
    ∧ decode (0x00000000000000#56 ++ 0b11111111#8) = .illegal .unassignedOpcode := by decide

/-- R94, §3.7: RSVD other than 0, at its lowest and its highest bit, although OPC is assigned. -/
theorem test_decode_reserved_bits :
    decode (0x00000000000001#56 ++ 0b00000010#8) = .illegal .reservedBits
    ∧ decode (0x80000000000000#56 ++ 0b00000011#8) = .illegal .reservedBits := by decide

theorem test_table_words :
    decodeTableWord 64 0x1 = some .reset ∧ decodeTableWord 64 0x2 = some .input
    ∧ decodeTableWord 64 0x3 = some .result ∧ decodeTableWord 64 0x4 = some .hmac
    ∧ decodeTableWord 64 0x5 = none ∧ decodeTableWord 64 0x102 = none := by decide

/-- R98: HASH is RESET, INPUT, RESULT, twelve lines of HOST but for the repeated POLLs (P1's encodings). -/
theorem test_expand_HASH :
    (Pseudo.hash 0x1000 3 0x2000).expand Platform.default =
      [.regWrite 0x00 8 0x1, .poll,
       .regWrite 0x08 8 0x1000, .regWrite 0x10 8 0x3, .regWrite 0x00 8 0x2, .poll,
       .regWrite 0x08 8 0x2000, .regWrite 0x00 8 0x3, .poll] := by decide

/-! ### Well-formedness: an ill-formed term for each check -/

theorem smoke_rsvd : Cmd64.wellFormed { rsvd := 1, opc := 2 } = false := by decide
theorem smoke_opc_zero : Cmd64.wellFormed { rsvd := 0, opc := 0 } = false := by decide
theorem smoke_opc_five : Cmd64.wellFormed { rsvd := 0, opc := 5 } = false := by decide
theorem smoke_legal_words : Cmd64.wellFormed { rsvd := 0, opc := 1 } = true
    ∧ Cmd64.wellFormed { rsvd := 0, opc := 4 } = true := by decide
theorem smoke_addr_width_zero : Platform.wellFormed { smallPlatform with addrWidth := 0 } = false := by decide
theorem smoke_addr_width_65 : Platform.wellFormed { smallPlatform with addrWidth := 65 } = false := by decide
theorem smoke_platforms : smallPlatform.wellFormed = true ∧ Platform.default.wellFormed = true := by decide
theorem smoke_access_width : (ExternalEvent.regWrite 0x8008 4 0).wellFormed smallPlatform = false := by decide
theorem smoke_below_window : (ExternalEvent.regRead 0x7ff8 8).wellFormed smallPlatform = false := by decide
theorem smoke_misaligned : (ExternalEvent.regRead 0x8014 8).wellFormed smallPlatform = false := by decide
theorem smoke_beyond_window : (ExternalEvent.regWrite 0x8040 8 0).wellFormed smallPlatform = false := by decide
theorem smoke_write_beyond_memory : (ExternalEvent.memWrite 0x10000 0).wellFormed smallPlatform = false := by decide
theorem smoke_read_beyond_memory : (ExternalEvent.memRead 0x10000).wellFormed smallPlatform = false := by decide
theorem smoke_events :
    (ExternalEvent.regWrite 0x8038 8 0).wellFormed smallPlatform = true
    ∧ (ExternalEvent.regRead 0x8000 8).wellFormed smallPlatform = true
    ∧ (ExternalEvent.memWrite 0xffff 0).wellFormed smallPlatform = true
    ∧ ExternalEvent.poll.wellFormed smallPlatform = true
    ∧ ExternalEvent.powerOnReset.wellFormed smallPlatform = true := by decide
theorem smoke_commands : ∀ i ∈ [Instr.reset, .input, .result, .hmac], i.wellFormed = true := by decide

/-! ### The compression core: §3.1 to §3.4 -/

/-- §3.1, the row of 0x0123456789abcdef. -/
theorem test_sigma_functions :
    rotr 1 0x0123456789abcdef = 0x8091a2b3c4d5e6f7 ∧ smallSigma0 0x0123456789abcdef = 0x6f92c77c6c4f1aa1
    ∧ smallSigma1 0x0123456789abcdef = 0x70a3460dbbd4317a ∧ bigSigma0 0x0123456789abcdef = 0xb7c57a100c7ec1ab
    ∧ bigSigma1 0x0123456789abcdef = 0x7703112333475567 := by decide

/-- §3.1: the SHR zero fill of σ0 and σ1 on all ones, the Ch and Maj rows with mixed bits, and +64 with its carry dropped. -/
theorem test_word_functions :
    smallSigma0 0xffffffffffffffff = 0x01ffffffffffffff ∧ smallSigma1 0xffffffffffffffff = 0x03ffffffffffffff
    ∧ ch 0xff00ff00ff00ff00 0x0123456789abcdef 0xfedcba9876543210 = 0x01dc45988954cd10
    ∧ maj 0xff00ff00ff00ff00 0x0f0f0f0f0f0f0f0f 0x3333333333333333 = 0x3f033f033f033f03
    ∧ (0xffffffffffffffff : Word) + 1 = 0 := by decide

/-- §3.2: the padded block of "abc". -/
def abcBlock : List Byte :=
  [0x61, 0x62, 0x63, 0x80] ++ List.replicate 123 0 ++ [0x18]

/-- §3.2: W[0], W[15], W[16], W[17], W[18], W[31] and W[79]. -/
theorem test_schedule_abc :
    let w := schedule abcBlock
    w.getD 0 0 = 0x6162638000000000 ∧ w.getD 15 0 = 0x0000000000000018 ∧ w.getD 16 0 = 0x6162638000000000
    ∧ w.getD 17 0 = 0x00030000000000c0 ∧ w.getD 18 0 = 0x0a9699a24c700003 ∧ w.getD 31 0 = 0x0e987660934142f6
    ∧ w.getD 79 0 = 0x92aeeed1a7bcf7d2 := by decide +kernel

/-- §3.3: the working variables after rounds 0 and 1. -/
theorem test_rounds_abc :
    let v1 := compressionRound 0x428a2f98d728ae22 0x6162638000000000 (initialVars iv)
    let v2 := compressionRound 0x7137449123ef65cd 0x0000000000000000 v1
    v1 = { a := 0xf6afceb8bcfcddf5, b := 0x6a09e667f3bcc908, c := 0xbb67ae8584caa73b, d := 0x3c6ef372fe94f82b,
           e := 0x58cb02347ab51f91, f := 0x510e527fade682d1, g := 0x9b05688c2b3e6c1f, h := 0x1f83d9abfb41bd6b }
    ∧ v2.a = 0x1320f8c9fb872cc0 ∧ v2.e = 0xc3d4ebfd48650ffa := by decide +kernel

/-- §3.4: Compress(IV, abc-block, 1), and Compress(IV, "a" × 128, 1). -/
theorem test_compress_abc :
    (compress iv abcBlock 1).toList =
      [0xddaf35a193617aba, 0xcc417349ae204131, 0x12e6fa4e89a97ea2, 0x0a9eeee64b55d39a,
       0x2192992a274fc1a8, 0x36ba3c23a3feebbd, 0x454d4423643ce80e, 0x2a9ac94fa54ca49f] := by decide +kernel

theorem test_compress_full_block :
    (compress iv (List.replicate 128 0x61) 1).toList =
      [0x03bf7c6e55c11b04, 0x0d48757f45285fdc, 0xed46689bfc9026c0, 0x281701a1424c80f5,
       0xca31738befe6afee, 0x30f5fe8d4e41e248, 0x9379d57c74895af4, 0x4b1e84ebc1bab8b0] := by decide +kernel

/-- V-ENG-10: the length field after 2^32 bytes, BE_16(2^35). -/
theorem test_length_field_wide :
    Engine.bitLength { Engine.init with total := 0x100000000 } = 2 ^ 35
    ∧ beBytes 16 (2 ^ 35) = [0, 0, 0, 0, 0, 0, 0, 0, 0, 0, 0, 0x08, 0, 0, 0, 0] := by decide +kernel

/-! ### The commands, one step each -/

/-- R120's example: with FIN = 1, COR = 1 and STATUS = 0x0406, RESET gives STATUS = 0. -/
theorem test_RESET_clears_poison :
    answers (step (issued 0x1 (twoOperands 7 8) { flagged true true 3 with err := 0x04 }))
      (fun t => t.status = 0x0 ∧ t.engine.h.toList = iv.toList ∧ t.engine.blen = 0 ∧ t.args = twoOperands 7 8) = true := by decide +kernel

/-- R130's example, V-ENG-11: from reset, INPUT of 200 bytes leaves BLEN = 72 and TOTAL = 128. -/
theorem test_INPUT_200_bytes :
    answers (step (issued 0x2 (twoOperands 0x1000 200) State.reset))
      (fun t => t.engine.blen = 72 ∧ t.engine.total = 128 ∧ t.status = 0x0) = true := by decide +kernel

/-- §3.7: INPUT with FIN = 1 gives 0x306, and 0x202 when its range wraps (0x10 bytes from 0x…f0 fit, 0x20 wrap: V-ENG-14). -/
theorem test_INPUT_errors :
    answers (step (issued 0x2 (twoOperands 0xfffffffffffffff0 0x10) (flagged true false 3)))
      (fun t => t.status = 0x306) = true
    ∧ answers (step (issued 0x2 (twoOperands 0xfffffffffffffff0 0x20) (flagged true false 3)))
      (fun t => t.status = 0x202) = true := by decide +kernel

/-- V-ENG-3: the message "a" × 112, at the two-block boundary; the first and last eight bytes of its digest. -/
theorem test_RESULT_two_blocks :
    answers (step (issued 0x3 (twoOperands 0x2000 0)
        { State.reset with engine := Engine.init.absorb (List.replicate 112 0x61) }))
      (fun t => t.mem.readBytes 0x2000 8 = [0xc0, 0x1d, 0x08, 0x0e, 0xfd, 0x49, 0x27, 0x76]
        ∧ t.mem.readBytes 0x2038 8 = [0x40, 0x7c, 0x88, 0x30, 0x60, 0x4b, 0x70, 0xca]
        ∧ t.engine.blen = 112 ∧ t.status = 0x2) = true := by decide +kernel

/-- §3.7, V-ENG-14: RESULT with COR = 1 gives 0x406; at dst 0x…c0 it passes the range check, at 0x…c1 it gives 0x206. -/
theorem test_RESULT_errors :
    answers (step (issued 0x3 (twoOperands 0xffffffffffffffc0 0) (flagged true true 3)))
      (fun t => t.status = 0x406 ∧ t.mem = State.reset.mem) = true
    ∧ answers (step (issued 0x3 (twoOperands 0xffffffffffffffc1 0) (flagged true true 3)))
      (fun t => t.status = 0x206) = true := by decide +kernel

/-- V-HMAC-1 and V-HMAC-8: message "base", key "key", with the output range at the message's own address, FIN = COR = 1
(§3.7: STATUS 0x6). -/
theorem test_HMAC_base_key :
    answers (step (issued 0x4 (hmacOperands 0x3010 4 0x3000 3 0x3010)
        { loaded 0x3000 ([0x6b, 0x65, 0x79] ++ List.replicate 13 0 ++ [0x62, 0x61, 0x73, 0x65]) with
          engine := { Engine.init with fin := true, cor := true } }))
      (fun t => t.mem.readBytes 0x3010 64 =
          [0x82, 0xd9, 0x25, 0xbf, 0xd1, 0x48, 0xbc, 0x15, 0xc2, 0xe6, 0x51, 0x45, 0x4e, 0xaf, 0x6a, 0xc6,
           0x2e, 0x63, 0xb5, 0x65, 0x88, 0x27, 0x82, 0x4a, 0x67, 0x15, 0x17, 0x94, 0x9f, 0x58, 0xe7, 0xb5,
           0x55, 0x0d, 0x9a, 0xd0, 0x1a, 0x78, 0xb4, 0x14, 0x04, 0x13, 0x36, 0x8f, 0x5d, 0x53, 0x87, 0x84,
           0xca, 0xe4, 0x14, 0x68, 0x24, 0xc9, 0x8c, 0xa1, 0x4f, 0x85, 0x57, 0x34, 0x4b, 0x35, 0xed, 0x7b]
        ∧ t.status = 0x6) = true := by decide +kernel

/-- V-HMAC-6, V-ENG-9a: the key block of a 129-byte key (bytes 0x00 to 0x80) is its hash and 64 zeros. -/
theorem test_HMAC_long_key_block :
    let k0 := keyBlock ((List.range 129).map (BitVec.ofNat 8))
    k0.take 8 = [0x1d, 0x9d, 0xa5, 0x7f, 0xbb, 0xda, 0xb0, 0x9a]
    ∧ k0.drop 60 = [0xd8, 0x78, 0xeb, 0x0f] ++ List.replicate 64 0 := by decide +kernel

/-- §3.7: illegal words leave FIN and COR: 0x106. -/
theorem test_illegal_word_status :
    answers (step (issued 0x8000000000000003 (twoOperands 0 0) (flagged true true 3)))
      (fun t => t.status = 0x106 ∧ t.engine.blen = 3) = true := by decide +kernel

/-! ### The window, host memory and reset -/

/-- R28: INFO, read while a command runs. -/
theorem test_INFO_read :
    answers (step (acting (.regRead 0x38 8) (issued 0x2 (twoOperands 0 0) State.reset)))
      (fun t => t.observed = [.reg .info 0x0000020000400080]) = true := by decide +kernel

/-- R300, R301, R247, R29, R60, R64, R68: the stops of HOST's own actions. -/
theorem test_host_stops :
    faults (step (acting (.regWrite 0x00 8 1) (issued 0x1 (twoOperands 0 0) State.reset))) .busyRegisterWrite = true
    ∧ faults (step (acting (.memWrite 0x1002 9) (issued 0x2 (twoOperands 0x1000 3) State.reset))) .busyMemoryWrite = true
    ∧ faults (step (acting (.memWrite 0x1fff 9) small)) .memoryNotAdmitted = true
    ∧ faults (step (acting (.memRead 0x10000) small)) .noSuchAddress = true
    ∧ refuses (step (acting (.memRead 0x2000) small)) .sideEffectMemory = true
    ∧ refuses (step (acting (.regRead 0x8004 8) small)) .oddRegisterAccess = true := by decide +kernel

/-- R38: BLEN = 128 is a broken state. -/
theorem test_broken_state_faults : faults (step (flagged false false 128)) .invariantBroken = true := by decide +kernel

/-- R281: power-on reset clears the ARG registers. -/
theorem test_power_on_reset :
    answers (step (acting .powerOnReset { flagged true true 3 with args := twoOperands 7 8 }))
      (fun t => t.args = twoOperands 0 0 ∧ t.status = 0x0 ∧ t.engine.blen = 0) = true := by decide +kernel

/-- R280, R241: power-on reset while a command runs that writes nothing (RESULT with COR = 1 and, on the small platform, HMAC
with a wrapping key and an output range that is not admitted) resets the block and leaves memory. -/
theorem test_power_on_reset_while_busy :
    answers (step (acting .powerOnReset (issued 0x3 (twoOperands 0x1000 0) (flagged true true 3))))
      (fun t => t.mem = State.reset.mem ∧ t.status = 0x0) = true
    ∧ answers (step (acting .powerOnReset (issued 0x4 (hmacOperands 0 0 0xffff 2 0x3000) small)))
      (fun t => t.mem = small.mem ∧ t.status = 0x0) = true := by decide +kernel

/-! ### Witnesses: every obligation's hypotheses are met together by concrete states and operands -/

/-- INPUT of three bytes, accepted, CORE's turn next. -/
def inputState : State := issued 0x2 (twoOperands 0x1000 3) (loaded 0x1000 [0x61, 0x62, 0x63])

/-- RESULT to 0x2000, accepted, with the buffered length given. -/
def resultState (blen : Nat) : State := issued 0x3 (twoOperands 0x2000 0) (flagged false false blen)

theorem witness_StepKeepsInvariant : ∃ s t : State, s.Inv ∧ step s = .next t := by
  obtain ⟨t, h, -⟩ := exists_of_answers (o := step inputState) (fun _ => True) (by decide +kernel)
  exact ⟨inputState, t, by decide +kernel, h⟩

/-- Each way to break R38, at its boundary; and a step that answers a next state. -/
theorem witness_BrokenEngineFaults :
    (∃ s : State, 128 = s.engine.blen) ∧ (∃ s : State, s.engine.total.toNat % 128 ≠ 0)
    ∧ (∃ s : State, s.engine.cor = true ∧ s.engine.fin = false) ∧ ∃ s t : State, step s = .next t := by
  obtain ⟨t, h, -⟩ := exists_of_answers (o := step inputState) (fun _ => True) (by decide +kernel)
  exact ⟨⟨flagged false false 128, by decide⟩,
    ⟨{ State.reset with engine := { Engine.init with total := 127 } }, by decide⟩,
    ⟨flagged false true 0, by decide⟩, ⟨inputState, t, h⟩⟩

/-- Power-on reset with no command running, and while one runs. -/
theorem witness_PowerOnResetTable :
    (∃ (s : State) (rest : List ExternalEvent), s.actsNow .powerOnReset rest ∧ s.running = none)
    ∧ (∃ (s : State) (rest : List ExternalEvent), s.actsNow .powerOnReset rest ∧ s.busy = true)
    ∧ ∃ s t : State, exec .reset s = .next t :=
  ⟨⟨acting .powerOnReset (flagged true true 3), [], by decide +kernel⟩,
    ⟨acting .powerOnReset (resultState 3), [], by decide +kernel⟩, ⟨flagged true true 3, _, rfl⟩⟩

/-- Power-on reset during RESULT, with the bytes beside its output range; with no command running; and during an HMAC whose
key range wraps. -/
theorem witness_PowerOnResetCutsCommandShort :
    (State.actsNow (acting .powerOnReset (resultState 3)) .powerOnReset []
      ∧ ∀ a ∈ [0x1fff, 0x2040], ∀ g ∈ (acting .powerOnReset (resultState 3)).runningWrites, a < g.base ∨ g.base + g.len ≤ a)
    ∧ (acting .powerOnReset small).runningWrites = []
    ∧ (∃ (s : State) (r : Running), s.actsNow .powerOnReset [] ∧ s.running = some r ∧ decode r.word = .instr .hmac
        ∧ ∀ u, exec .hmac s = .next u → u.err ≠ 0x00) := by
  refine ⟨by decide +kernel, by decide +kernel,
    ⟨acting .powerOnReset (issued 0x4 (hmacOperands 0 0 2 0xffffffffffffffff 0x3000) State.reset), _,
      by decide +kernel, rfl, by decide, fun u hu => ?_⟩⟩
  have hw := execHmac_of_wraps
    (s := acting .powerOnReset (issued 0x4 (hmacOperands 0 0 2 0xffffffffffffffff 0x3000) State.reset))
    (.inr (.inl (by decide +kernel)))
  rw [← Host.Outcome.next.inj (hw.symm.trans hu)]
  decide

theorem witness_ResetDiffersFromPowerOnInArgs :
    (∃ (u : State) (rest : List ExternalEvent), u.actsNow .powerOnReset rest ∧ u.busy = true)
    ∧ ∃ s t : State, step s = .next t ∧ s.busy = false ∧ t.busy = true := by
  obtain ⟨t, h, hb⟩ := exists_of_answers (o := step (acting (.regWrite 0x00 8 0x2) State.reset))
    (fun t => t.busy = true) (by decide +kernel)
  exact ⟨⟨acting .powerOnReset (resultState 3), [], by decide +kernel⟩,
    ⟨acting (.regWrite 0x00 8 0x2) State.reset, t, h, by decide, hb⟩⟩

/-- The words on either side of the four legal ones, and two with a reserved bit set. -/
theorem witness_OpcodeMapIsExact :
    ∀ s ∈ [issued 0x0 (twoOperands 0 0) State.reset, issued 0x5 (twoOperands 0 0) State.reset,
        issued 0x101 (twoOperands 0 0) State.reset, issued 0x8000000000000004 (twoOperands 0 0) State.reset],
      s.engine.sound = true ∧ s.nextAgent = .core
        ∧ ∃ r ∈ s.running.toList, r.word ≠ 0x1 ∧ r.word ≠ 0x2 ∧ r.word ≠ 0x3 ∧ r.word ≠ 0x4 := by
  decide +kernel

theorem witness_StepRunsAcceptedCommand :
    (∃ (s : State) (w : Word) (rest : List ExternalEvent),
      s.actsNow (.regWrite (s.platform.regBase + 0x00) 8 w) rest ∧ s.busy = false)
    ∧ (∀ i ∈ [Instr.reset, .input, .result, .hmac],
        ∃ (s : State) (r : Running), s.engine.sound = true ∧ s.nextAgent = .core ∧ s.running = some r
          ∧ r.word = encode i ∧ i.wellFormed = true)
    ∧ ∃ s : State, s.engine.sound = true := by
  have sound : Engine.init.sound = true := by decide +kernel
  exact ⟨⟨acting (.regWrite 0x8000 8 0x2) small, 0x2, [], by decide +kernel⟩,
    fun i hi => ⟨issued (encode i) (twoOperands 0 0) State.reset, ⟨encode i, twoOperands 0 0⟩, sound, rfl, rfl, rfl,
      smoke_commands i hi⟩,
    ⟨State.reset, sound⟩⟩

/-- Each command with its ranges at the edge: INPUT up to the last byte of host memory (V-ENG-14), RESULT in the last 64. -/
theorem witness_EveryCommandCompletes :
    (∃ (s : State) (w : Word) (rest : List ExternalEvent),
      s.actsNow (.regWrite (s.platform.regBase + 0x00) 8 w) rest ∧ s.busy = false)
    ∧ (∃ s t : State, step s = .next t ∧ s.nextAgent = .host ∧ s.busy = true ∧ s.events.head? ≠ some .powerOnReset)
    ∧ (∀ s ∈ [issued 0x1 (twoOperands 0 0) State.reset,
          issued 0x2 (twoOperands 0xfffffffffffffff0 0x10) State.reset,
          issued 0x3 (twoOperands 0xffffffffffffffc0 0) State.reset,
          issued 0x4 (hmacOperands 0x3010 4 0x3000 0 0x3010) State.reset,
          issued 0x2 (twoOperands 0xfffffffffffffff0 0x20) State.reset],
        s.engine.sound = true ∧ s.nextAgent = .core
          ∧ ∃ r ∈ s.running.toList, ∀ i ∈ [Instr.reset, .input, .result, .hmac], decode r.word = .instr i →
            ∀ g ∈ readRanges i r.ops ++ writeRanges i r.ops, g.representable s.platform = true → s.reaches g = true)
    ∧ ∃ (s : State) (rest : List ExternalEvent),
        s.actsNow (.regRead (s.platform.regBase + 0x30) 8) rest ∧ s.busy = true := by
  obtain ⟨t, h, -⟩ := exists_of_answers (o := step (acting (.regRead 0x30 8) inputState)) (fun _ => True)
    (by decide +kernel)
  exact ⟨⟨acting (.regWrite 0x8000 8 0x2) small, 0x2, [], by decide +kernel⟩,
    ⟨acting (.regRead 0x30 8) inputState, t, h, by decide +kernel⟩, by decide +kernel,
    ⟨acting (.regRead 0x30 8) inputState, [], by decide +kernel⟩⟩

/-- INPUT of three bytes, of no byte, and of the last 16 bytes of host memory. -/
theorem witness_InputAbsorbsWholeBlocks :
    ∀ s ∈ [inputState, issued 0x2 (twoOperands 0xffffffffffffffff 0) State.reset,
        issued 0x2 (twoOperands 0xfffffffffffffff0 0x10) (flagged false false 127)],
      s.engine.sound = true ∧ s.InputRuns := by decide +kernel

theorem witness_InputAfterFinalizePoisons :
    (∃ s : State, s.operands.inputRange.representable s.platform = true ∧ s.engine.fin = true)
    ∧ (∃ s t : State, s.engine.cor = true ∧ exec .hmac s = .next t)
    ∧ (∃ s t : State, s.engine.cor = true ∧ exec .input s = .next t)
    ∧ ∃ s : State, s.operands.resultRange.representable s.platform = true ∧ s.engine.cor = true := by
  obtain ⟨t, h, -⟩ := exists_of_answers
    (o := exec .hmac (issued 0x4 (hmacOperands 0 0 0 0 0xffffffffffffffc1) (flagged true true 3)))
    (fun _ => True) (by decide +kernel)
  obtain ⟨u, h', -⟩ := exists_of_answers
    (o := exec .input (issued 0x2 (twoOperands 0x1000 0) (flagged true true 3))) (fun _ => True) (by decide +kernel)
  exact ⟨⟨issued 0x2 (twoOperands 0xffffffffffffffff 0) (flagged true false 3), by decide +kernel⟩,
    ⟨_, t, by decide, h⟩, ⟨_, u, by decide, h'⟩,
    ⟨issued 0x3 (twoOperands 0xffffffffffffffc0 0) (flagged true true 3), by decide +kernel⟩⟩

theorem witness_ZeroLengthOperandsAccessNothing :
    (∃ s : State, s.engine.sound = true ∧ s.operands.arg1 = 0 ∧ s.engine.fin = false
        ∧ memAdmit s.platform s.operands.arg0.toNat = false)
    ∧ (∃ (s : State) (r : Running), s.running = some r ∧ r.ops.arg1 = 0)
    ∧ ∃ (s : State) (r : Running), s.running = some r ∧ r.ops.arg3 = 0 :=
  ⟨⟨issued 0x2 (twoOperands 0x3000 0) small, by decide +kernel⟩,
    ⟨issued 0x4 (hmacOperands 9 0 0x3000 3 0x3010) State.reset, ⟨0x4, hmacOperands 9 0 0x3000 3 0x3010⟩, rfl, rfl⟩,
    ⟨issued 0x4 (hmacOperands 0x3010 4 9 0 0x3010) State.reset, ⟨0x4, hmacOperands 0x3010 4 9 0 0x3010⟩, rfl, rfl⟩⟩

/-- Each range passes the top of host memory by one byte (the RESULT case is V-ENG-14's). -/
theorem witness_RangeCheckComesFirst :
    (∃ s : State, s.operands.arg1.toNat ≠ 0 ∧ 2 ^ s.platform.addrWidth + 1 = s.operands.arg0.toNat + s.operands.arg1.toNat)
    ∧ (∃ s : State, 2 ^ s.platform.addrWidth + 1 = s.operands.arg0.toNat + 64)
    ∧ (∃ s : State, s.operands.arg3.toNat ≠ 0 ∧ 2 ^ s.platform.addrWidth + 1 = s.operands.arg2.toNat + s.operands.arg3.toNat)
    ∧ ∃ s : State, 2 ^ s.platform.addrWidth + 1 = s.operands.arg4.toNat + 64 :=
  ⟨⟨issued 0x2 (twoOperands 0xfffffffffffffff0 0x11) State.reset, by decide +kernel⟩,
    ⟨issued 0x3 (twoOperands 0xffffffffffffffc1 0) State.reset, by decide +kernel⟩,
    ⟨issued 0x4 (hmacOperands 0 0 0xffffffffffffffff 2 0) State.reset, by decide +kernel⟩,
    ⟨issued 0x4 (hmacOperands 0 0 0 0 0xffffffffffffffc1) State.reset, by decide +kernel⟩⟩

/-- The last byte of each range lies just past the small platform's memory. -/
theorem witness_UnadmittedAccessFaults :
    (∃ (s : State) (k : Nat), s.operands.inputRange.representable s.platform = true ∧ s.engine.fin = false
      ∧ k < s.operands.arg1.toNat ∧ memAdmit s.platform (s.operands.arg0.toNat + k) = false)
    ∧ (∃ (s : State) (k : Nat), s.operands.resultRange.representable s.platform = true ∧ s.engine.cor = false
      ∧ k < 64 ∧ memAdmit s.platform (s.operands.arg0.toNat + k) = false)
    ∧ ∃ s : State, s.operands.messageRange.representable s.platform = true
      ∧ s.operands.keyRange.representable s.platform = true ∧ s.operands.hmacRange.representable s.platform = true
      ∧ ∀ g ∈ [s.operands.messageRange, s.operands.keyRange, s.operands.hmacRange],
          g.len - 1 < g.len ∧ memAdmit s.platform (g.base + (g.len - 1)) = false :=
  ⟨⟨issued 0x2 (twoOperands 0x103f 2) small, 1, by decide +kernel⟩,
    ⟨issued 0x3 (twoOperands 0x1001 0) small, 63, by decide +kernel⟩,
    ⟨issued 0x4 (hmacOperands 0x1040 1 0x103f 2 0x1001) small, by decide +kernel⟩⟩

/-- INPUT, RESULT and HMAC that reach the FIFO. -/
theorem witness_SideEffectMemoryRefused :
    ∀ c ∈ [(Instr.input, issued 0x2 (twoOperands 0x203f 1) small), (.result, issued 0x3 (twoOperands 0x2000 0) small),
        (.hmac, issued 0x4 (hmacOperands 0x1000 4 0x2000 1 0x1000) small)],
      (∀ g ∈ readRanges c.1 c.2.operands ++ writeRanges c.1 c.2.operands, g.representable c.2.platform = true)
      ∧ (c.1 = .input → c.2.engine.fin = false) ∧ (c.1 = .result → c.2.engine.cor = false)
      ∧ (∀ g ∈ readRanges c.1 c.2.operands ++ writeRanges c.1 c.2.operands, ∀ k, k < g.len →
          memAdmit c.2.platform (g.base + k) = true)
      ∧ ∃ g ∈ readRanges c.1 c.2.operands ++ writeRanges c.1 c.2.operands, ∃ k, k < g.len ∧
          regionKindAt (g.base + k) c.2.platform.regions = some .sideEffects := by decide +kernel

/-- RESULT at the buffered lengths where R144's rows meet, and in the last 64 bytes of host memory. -/
theorem witness_ResultFinalizesAndWrites :
    ∀ s ∈ [resultState 0, resultState 111, resultState 112, resultState 127,
        issued 0x3 (twoOperands 0xffffffffffffffc0 0) State.reset],
      s.engine.sound = true ∧ s.mem.wf = true ∧ s.ResultRuns ∧ s.engine.fin = false := by decide +kernel

theorem witness_RepeatedResultWritesSameBytes :
    ∃ (s : State) (dst : Word), s.mem.wf = true ∧ s.ResultRuns ∧ s.engine.fin = true
      ∧ (outRange dst).representable s.platform = true ∧ s.reaches (outRange dst) = true :=
  ⟨issued 0x3 (twoOperands 0x2000 0) (flagged true false 112), 0x2040, by decide +kernel⟩

theorem witness_FinalBlockTable :
    (∃ e : Engine, e.blen < 128 ∧ e.blen ≤ 111 ∧ e.blen = 111) ∧ (∃ e : Engine, e.blen < 128 ∧ e.blen = 0)
    ∧ (∃ e : Engine, e.blen < 128 ∧ 112 = e.blen) ∧ ∃ e : Engine, e.blen < 128 ∧ e.blen = 127 :=
  ⟨⟨(flagged false false 111).engine, by decide⟩, ⟨Engine.init, by decide⟩,
    ⟨(flagged false false 112).engine, by decide⟩, ⟨(flagged false false 127).engine, by decide⟩⟩

theorem witness_LengthFieldIsBitLength : ([0x61, 0x62, 0x63] : List Byte).length < 2 ^ 125 := by decide

/-- HMAC with its output over its message, and with an empty message and an empty key. -/
theorem witness_HmacWritesCode :
    ∀ s ∈ [issued 0x4 (hmacOperands 0x3010 4 0x3000 3 0x3010) (flagged true true 3),
        issued 0x4 (hmacOperands 0xffffffffffffffff 0 0xffffffffffffffff 0 0xffffffffffffffc0) State.reset],
      s.mem.wf = true ∧ s.HmacRuns := by decide +kernel

/-- Keys of 0, 127, 128 and 129 bytes. -/
theorem witness_KeyBlockPadsOrHashes :
    ([] : List Byte).length ≤ 128 ∧ (List.replicate 127 (0 : Byte)).length ≤ 128
    ∧ (List.replicate 128 (0 : Byte)).length = 128 ∧ 128 < (List.replicate 129 (0 : Byte)).length := by decide +kernel

/-- "abc" in one chunk, and in chunks of 1, 0 and 2 bytes; and P5's chunks of 127, 1 and 112 bytes. -/
theorem witness_ChunkingDoesNotChangeDigest :
    let s := loaded 0x1000 [0x61, 0x62, 0x63]
    (∀ c ∈ [([((0x1000 : Word), (1 : Word)), (0x1001, 0), (0x1001, 2)], (3 : Word)),
        ([(0x1000, 127), (0x107f, 1), (0x1080, 112)], 240)],
      s.mem.wf = true ∧ s.chunksReachable c.1 = true ∧ s.chunksReachable [(0x1000, c.2)] = true
        ∧ s.mem.message c.1 = s.mem.readBytes (0x1000 : Word).toNat c.2.toNat)
    ∧ (outRange 0x2000).representable s.platform = true ∧ s.reaches (outRange 0x2000) = true := by decide +kernel

theorem witness_HashPseudoInstructionWritesDigest :
    let s := { loaded 0x1000 [0x61, 0x62, 0x63] with events := (Pseudo.hash 0x1000 3 0x2000).expand Platform.default }
    s.engine.sound = true ∧ s.mem.wf = true ∧ s.running = none ∧ s.turns = []
      ∧ s.events = (Pseudo.hash 0x1000 3 0x2000).expand s.platform ++ [] ∧ s.chunksReachable [(0x1000, 3)] = true
      ∧ (outRange 0x2000).representable s.platform = true ∧ s.reaches (outRange 0x2000) = true := by decide +kernel

/-- The least and the greatest rotation amount and bit number. -/
theorem witness_WordFunctionsBitByBit :
    (∃ n i : Nat, n = 1 ∧ i = 63 ∧ 0 < n ∧ n < 64 ∧ i < 64) ∧ ∃ n i : Nat, n = 63 ∧ i = 0 ∧ 0 < n ∧ n < 64 ∧ i < 64 :=
  ⟨⟨1, 63, by decide⟩, ⟨63, 0, by decide⟩⟩

/-- The least and the greatest bit number. -/
theorem witness_SigmaFunctionsBitByBit : (∃ i : Nat, i = 0 ∧ i < 64) ∧ ∃ i : Nat, i = 63 ∧ i < 64 :=
  ⟨⟨0, by decide⟩, ⟨63, by decide⟩⟩

/-- The first and the last constant of each table. -/
theorem witness_ConstantsArePrimeRoots :
    (∃ i : Nat, i = 0 ∧ i < 8) ∧ (∃ i : Nat, i = 7 ∧ i < 8) ∧ (∃ t : Nat, t = 0 ∧ t < 80) ∧ ∃ t : Nat, t = 79 ∧ t < 80 :=
  ⟨⟨0, by decide⟩, ⟨7, by decide⟩, ⟨0, by decide⟩, ⟨79, by decide⟩⟩

theorem witness_ScheduleFollowsRecurrence :
    abcBlock.length = 128 ∧ (∃ i k : Nat, i = 15 ∧ k = 7 ∧ i < 16 ∧ k < 8) ∧ (∃ i : Nat, 16 ≤ i ∧ i < 80 ∧ i = 16)
    ∧ ∃ i : Nat, 16 ≤ i ∧ i < 80 ∧ i = 79 :=
  ⟨by decide +kernel, ⟨15, 7, by decide⟩, ⟨16, by decide⟩, ⟨79, by decide⟩⟩

/-- No block, and two, the last of them j = 1. -/
theorem witness_CompressBlockIsEightyRounds :
    ([] : List Byte).length = 128 * 0 ∧ (abcBlock ++ abcBlock).length = 128 * 2 ∧ ∃ j : Nat, j = 1 ∧ j < 2 :=
  ⟨rfl, by decide +kernel, ⟨1, by decide⟩⟩

theorem witness_StatusLayout :
    inputState.busy = true
    ∧ ∃ (s : State) (v : Word) (rest : List ExternalEvent),
      s.actsNow (.regWrite (s.platform.regBase + 0x30) 8 v) rest ∧ s.busy = false :=
  ⟨by decide, ⟨acting (.regWrite 0x8030 8 0xffff) small, 0xffff, [], by decide +kernel⟩⟩

theorem witness_InfoIsConstant :
    (∃ (s : State) (rest : List ExternalEvent), s.actsNow (.regRead (s.platform.regBase + 0x38) 8) rest)
    ∧ ∃ (s : State) (v : Word) (rest : List ExternalEvent),
      s.actsNow (.regWrite (s.platform.regBase + 0x38) 8 v) rest ∧ s.busy = false :=
  ⟨⟨acting (.regRead 0x38 8) inputState, [], by decide +kernel⟩,
    ⟨acting (.regWrite 0x8038 8 0xffff) small, 0xffff, [], by decide +kernel⟩⟩

theorem witness_RegisterReadsReturnContents :
    ∀ off ∈ [0x00, 0x08, 0x10, 0x18, 0x20, 0x28, 0x30],
      (State.actsNow (acting (.regRead (0x8000 + off) 8) small) (.regRead (small.platform.regBase + off) 8) []
        ∧ (acting (.regRead (0x8000 + off) 8) small).busy = false)
      ∧ State.actsNow (acting (.regRead off 8) inputState) (.regRead (inputState.platform.regBase + off) 8) []
        ∧ (acting (.regRead off 8) inputState).busy = true := by decide +kernel

theorem witness_ArgWritesStoreWholeWord :
    ∀ off ∈ [0x08, 0x10, 0x18, 0x20, 0x28],
      State.actsNow (acting (.regWrite (0x8000 + off) 8 0xffffffffffffffff) small)
          (.regWrite (small.platform.regBase + off) 8 0xffffffffffffffff) []
        ∧ (acting (.regWrite (0x8000 + off) 8 0xffffffffffffffff) small).busy = false := by decide +kernel

/-- Another width; below the window; misaligned; the first offset past it; and well-formed reads and writes at both ends. -/
theorem witness_OddRegisterAccessRefused :
    (∀ c ∈ [((0x8000 : Nat), (4 : Nat)), (0x7fff, 8), (0x8001, 8), (0x8040, 8)],
      (c.2 ≠ 8 ∨ c.1 < small.platform.regBase ∨ (c.1 - small.platform.regBase) % 8 ≠ 0
        ∨ 0x40 ≤ c.1 - small.platform.regBase)
      ∧ State.actsNow (acting (.regWrite c.1 c.2 1) small) (.regWrite c.1 c.2 1) []
      ∧ State.actsNow (acting (.regRead c.1 c.2) small) (.regRead c.1 c.2) [])
    ∧ ∀ off ∈ [0x00, 0x38],
      State.actsNow (acting (.regRead (0x8000 + off) 8) small) (.regRead (small.platform.regBase + off) 8) []
      ∧ State.actsNow (acting (.regWrite (0x8000 + off) 8 1) small) (.regWrite (small.platform.regBase + off) 8 1) []
      ∧ off % 8 = 0 ∧ off < 0x40 ∧ (acting (.regWrite (0x8000 + off) 8 1) small).busy = false := by decide +kernel

theorem witness_BusyRegisterWritesFault :
    (∀ off ∈ [0x00, 0x38],
      State.actsNow (acting (.regWrite off 8 1) inputState) (.regWrite (inputState.platform.regBase + off) 8 1) []
        ∧ off % 8 = 0 ∧ off < 0x40 ∧ (acting (.regWrite off 8 1) inputState).busy = true)
    ∧ ∀ off ∈ [0x30, 0x38],
      State.actsNow (acting (.regRead off 8) inputState) (.regRead (inputState.platform.regBase + off) 8) []
        ∧ (acting (.regRead off 8) inputState).busy = true := by decide +kernel

/-- HOST's write and read of the first and last byte of the small platform's memory, with no command running and while the
word 0x5, which is illegal, is running. -/
theorem witness_BusyMemoryHazards_idle :
    small.running = none ∧ decode 0x5 = .illegal .unassignedOpcode
    ∧ (issued 0x5 (twoOperands 0x1000 64) small).running = some { word := 0x5, ops := twoOperands 0x1000 64 }
    ∧ ∀ s ∈ [small, issued 0x5 (twoOperands 0x1000 64) small], s.mem.wf = true ∧ ∀ a ∈ [0x1000, 0x103f],
        a < 2 ^ s.platform.addrWidth ∧ memOrdinary s.platform a = true
        ∧ State.actsNow (acting (.memWrite a 1) s) (.memWrite a 1) []
        ∧ State.actsNow (acting (.memRead a) s) (.memRead a) [] := by decide +kernel

/-- HMAC with message 0x3010..0x3013, key 0x3000..0x3002 and output 0x3100..0x313f: the first and last byte of each range, and
the bytes just outside. -/
theorem witness_BusyMemoryHazards :
    let op := hmacOperands 0x3010 4 0x3000 3 0x3100
    let s := issued 0x4 op State.reset
    s.running = some { word := 0x4, ops := op } ∧ decode 0x4 = .instr .hmac
    ∧ (∀ a ∈ [0x3010, 0x3013, 0x3000, 0x3002, 0x3100, 0x313f], a < 2 ^ s.platform.addrWidth
        ∧ memOrdinary s.platform a = true
        ∧ (∃ g ∈ readRanges .hmac op ++ writeRanges .hmac op, g.base ≤ a ∧ a < g.base + g.len)
        ∧ State.actsNow (acting (.memWrite a 1) s) (.memWrite a 1) [])
    ∧ (∀ a ∈ [0x3100, 0x313f], (∃ g ∈ writeRanges .hmac op, g.base ≤ a ∧ a < g.base + g.len)
        ∧ State.actsNow (acting (.memRead a) s) (.memRead a) [])
    ∧ (∀ a ∈ [0x2fff, 0x3003, 0x3140], memOrdinary s.platform a = true
        ∧ (∀ g ∈ readRanges .hmac op ++ writeRanges .hmac op, a < g.base ∨ g.base + g.len ≤ a)
        ∧ State.actsNow (acting (.memWrite a 1) s) (.memWrite a 1) [])
    ∧ ∀ a ∈ [0x3010, 0x30ff, 0x3140], (∀ g ∈ writeRanges .hmac op, a < g.base ∨ g.base + g.len ≤ a)
        ∧ State.actsNow (acting (.memRead a) s) (.memRead a) [] := by decide +kernel

theorem witness_PollWaitsForBusyZero :
    (∃ (s : State) (rest : List ExternalEvent), s.actsNow .poll rest ∧ s.busy = false)
    ∧ ∃ (s : State) (rest : List ExternalEvent), s.actsNow .poll rest ∧ s.busy = true :=
  ⟨⟨acting .poll State.reset, [], by decide +kernel⟩, ⟨acting .poll inputState, [], by decide +kernel⟩⟩

/-- An illegal word, INVALID_ARGUMENT, ALREADY_FINALIZED and CORRUPTED, each by a step of CORE. -/
theorem witness_ErrorsArePrecise :
    ∀ c ∈ [(issued 0x0 (twoOperands 0x1000 3) (flagged true false 3), (0x01 : Byte)),
        (issued 0x3 (twoOperands 0xffffffffffffffc1 0) (flagged true true 3), 0x02),
        (issued 0x2 (twoOperands 0x1000 3) (flagged true false 3), 0x03),
        (issued 0x3 (twoOperands 0x2000 0) (flagged true true 3), 0x04)],
      c.1.nextAgent = .core ∧ c.1.running.isSome = true ∧ ∃ t : State, step c.1 = .next t ∧ t.err ≠ 0x00 ∧ t.err = c.2 := by
  have key : ∀ c ∈ [(issued 0x0 (twoOperands 0x1000 3) (flagged true false 3), (0x01 : Byte)),
        (issued 0x3 (twoOperands 0xffffffffffffffc1 0) (flagged true true 3), 0x02),
        (issued 0x2 (twoOperands 0x1000 3) (flagged true false 3), 0x03),
        (issued 0x3 (twoOperands 0x2000 0) (flagged true true 3), 0x04)],
      (c.1.nextAgent = .core ∧ c.1.running.isSome = true)
        ∧ answers (step c.1) (fun t => t.err ≠ 0x00 ∧ t.err = c.2) = true := by decide +kernel
  exact fun c hc => ⟨(key c hc).1.1, (key c hc).1.2, exists_of_answers _ (key c hc).2⟩

/-- Every command answers a next state with each code that R240 gives it, and so does CORE's turn on the word 0x0. -/
theorem witness_ErrNamesTheFirstCause :
    (∃ (s t : State) (r : Running), s.nextAgent = .core ∧ s.running = some r ∧ r.word ≠ 0x1 ∧ r.word ≠ 0x2
      ∧ r.word ≠ 0x3 ∧ r.word ≠ 0x4 ∧ step s = .next t)
    ∧ ∀ c ∈ [(Instr.reset, issued 0x1 (twoOperands 0 0) (flagged true true 3), (0x00 : Byte)),
        (.input, inputState, 0x00), (.input, issued 0x2 (twoOperands 1 0xffffffffffffffff) (flagged true false 3), 0x03),
        (.input, issued 0x2 (twoOperands 2 0xffffffffffffffff) (flagged true false 3), 0x02),
        (.result, issued 0x3 (twoOperands 0x2000 0) (flagged true false 3), 0x00),
        (.result, issued 0x3 (twoOperands 0x2000 0) (flagged true true 3), 0x04),
        (.result, issued 0x3 (twoOperands 0xffffffffffffffc1 0) (flagged true true 3), 0x02),
        (.hmac, issued 0x4 (hmacOperands 0 0 0 0 0xffffffffffffffc1) State.reset, 0x02)],
      ∃ t : State, exec c.1 c.2.1 = .next t ∧ t.err = c.2.2 := by
  have key : ∀ c ∈ [(Instr.reset, issued 0x1 (twoOperands 0 0) (flagged true true 3), (0x00 : Byte)),
      (.input, inputState, 0x00), (.input, issued 0x2 (twoOperands 1 0xffffffffffffffff) (flagged true false 3), 0x03),
      (.input, issued 0x2 (twoOperands 2 0xffffffffffffffff) (flagged true false 3), 0x02),
      (.result, issued 0x3 (twoOperands 0x2000 0) (flagged true false 3), 0x00),
      (.result, issued 0x3 (twoOperands 0x2000 0) (flagged true true 3), 0x04),
      (.result, issued 0x3 (twoOperands 0xffffffffffffffc1 0) (flagged true true 3), 0x02),
      (.hmac, issued 0x4 (hmacOperands 0 0 0 0 0xffffffffffffffc1) State.reset, 0x02)],
      answers (exec c.1 c.2.1) (fun t => t.err = c.2.2) = true := by decide +kernel
  obtain ⟨t, h, -⟩ := exists_of_answers (o := step (issued 0x0 (twoOperands 0 0) State.reset)) (fun _ => True)
    (by decide +kernel)
  exact ⟨⟨issued 0x0 (twoOperands 0 0) State.reset, t, ⟨0x0, twoOperands 0 0⟩, rfl, rfl, by decide, by decide, by decide,
    by decide, h⟩, fun c hc => exists_of_answers _ (key c hc)⟩

/-- FIN set by RESULT, and cleared by RESET and by power-on reset; RESULT with FIN = 1. -/
theorem witness_FinalizedFlagRule :
    (∃ s t : State, step s = .next t ∧ s.engine.fin = false ∧ t.engine.fin = true)
    ∧ (∀ s ∈ [issued 0x1 (twoOperands 0 0) (flagged true false 3), acting .powerOnReset (flagged true false 3)],
        ∃ t : State, step s = .next t ∧ s.engine.fin = true ∧ t.engine.fin = false)
    ∧ ∃ s : State, s.mem.wf = true ∧ s.engine.fin = true ∧ s.ResultRuns := by
  have key : ∀ s ∈ [issued 0x1 (twoOperands 0 0) (flagged true false 3), acting .powerOnReset (flagged true false 3)],
      answers (step s) (fun t => s.engine.fin = true ∧ t.engine.fin = false) = true := by decide +kernel
  obtain ⟨t, h, ht⟩ := exists_of_answers (o := step (resultState 3))
    (fun t => (resultState 3).engine.fin = false ∧ t.engine.fin = true) (by decide +kernel)
  exact ⟨⟨_, t, h, ht⟩, fun s hs => exists_of_answers _ (key s hs),
    ⟨issued 0x3 (twoOperands 0x2000 0) (flagged true false 3), by decide +kernel⟩⟩

/-- COR set by INPUT with FIN = 1, and cleared by RESET and by power-on reset; RESULT with COR = 1. -/
theorem witness_CorruptedFlagRule :
    (∃ s t : State, step s = .next t ∧ s.engine.cor = false ∧ t.engine.cor = true)
    ∧ (∀ s ∈ [issued 0x1 (twoOperands 0 0) (flagged true true 3), acting .powerOnReset (flagged true true 3)],
        ∃ t : State, step s = .next t ∧ s.engine.cor = true ∧ t.engine.cor = false)
    ∧ ∃ s : State, s.engine.cor = true ∧ s.operands.resultRange.representable s.platform = true := by
  have key : ∀ s ∈ [issued 0x1 (twoOperands 0 0) (flagged true true 3), acting .powerOnReset (flagged true true 3)],
      answers (step s) (fun t => s.engine.cor = true ∧ t.engine.cor = false) = true := by decide +kernel
  obtain ⟨t, h, ht⟩ := exists_of_answers (o := step (issued 0x2 (twoOperands 0x1000 3) (flagged true false 3)))
    (fun t => (flagged true false 3).engine.cor = false ∧ t.engine.cor = true) (by decide +kernel)
  exact ⟨⟨_, t, h, ht⟩, fun s hs => exists_of_answers _ (key s hs),
    ⟨issued 0x3 (twoOperands 0x2000 0) (flagged true true 3), by decide +kernel⟩⟩

/-- A step that changes ARG0: HOST's write of it. -/
theorem witness_ArgsChangeOnlyFromOutside : ∃ s t : State, step s = .next t ∧ t.args ≠ s.args := by
  obtain ⟨t, h, ht⟩ := exists_of_answers (o := step (acting (.regWrite 0x8008 8 5) small))
    (fun t => t.args ≠ small.args) (by decide +kernel)
  exact ⟨_, t, h, ht⟩

/-- A step that changes a byte of memory: HOST's write of one, and RESULT's of its first byte. -/
theorem witness_MemoryChangesOnlyWhereNamed :
    ∀ c ∈ [(acting (.memWrite 0x1000 7) small, (0x1000 : Nat)), (resultState 0, 0x2000)],
      ∃ t : State, step c.1 = .next t ∧ t.mem.read c.2 ≠ c.1.mem.read c.2 := by
  have key : ∀ c ∈ [(acting (.memWrite 0x1000 7) small, (0x1000 : Nat)), (resultState 0, 0x2000)],
      answers (step c.1) (fun t => t.mem.read c.2 ≠ c.1.mem.read c.2) = true := by decide +kernel
  exact fun c hc => exists_of_answers _ (key c hc)

/-- Two memories that differ outside INPUT's source range and agree on it. -/
theorem witness_CommandsReadOnlyTheirOperands :
    ∃ (s : State) (m : Memory), s.mem.wf = true ∧ m.wf = true ∧ m ≠ s.mem
      ∧ ∀ g ∈ readRanges .input s.operands, ∀ a, g.base ≤ a → a < g.base + g.len → m.read a = s.mem.read a := by
  refine ⟨inputState, inputState.mem.write 0x1003 9, by decide +kernel, by decide +kernel, by decide +kernel, ?_⟩
  intro g hg a h1 h2
  obtain rfl : g = { base := 0x1000, len := 3 } := by simpa [readRanges, inputState, issued, State.operands, Args.inputRange, rangeOf, twoOperands] using hg
  exact Memory.read_write_other _ _ (by simp only at h2; omega)

/-- Two different states that differ only in a byte of BUF past BLEN and in the datapath. -/
theorem witness_HiddenStateNeverShows :
    let s' := { inputState with
      engine := { inputState.engine with buf := inputState.engine.buf.setIfInBounds 0 7 }
      datapath := { Datapath.zero with t1 := 1 } }
    inputState ≠ s' ∧ inputState.eraseHidden = s'.eraseHidden := by
  refine ⟨fun h => absurd (congrArg (fun s : State => s.datapath.t1) h) (by decide), ?_⟩
  simp [State.eraseHidden, inputState, issued, loaded, State.reset, Engine.init]

end Sys2Proof.Tests
end

section
/-! The rules of the state (spec/10_state.md): what a step does to the running command and to the engine's flags, the fields of
STATUS and INFO, and the constants. The obligations of this family stand at the end. -/

namespace Sys2Proof.Machine

/-! ### What a step can do -/

/-- Everything a step can do, by the agent whose turn it is: CORE idles, rejects an illegal word or runs the command, and HOST
idles or acts. -/
theorem step_cases {s t : State} (h : step s = .next t) :
    (s.running = none ∧ t = s.takeTurn)
    ∨ (s.nextAgent = .core ∧ t = s.takeTurn.finish .illegalCommand)
    ∨ (∃ i, s.runsNow i ∧ exec i s.takeTurn = .next t)
    ∨ (s.events = [] ∧ t = s.takeTurn)
    ∨ (∃ e rest, s.actsNow e rest ∧ externalEvent (s.afterAction rest) e = .next t) := by
  obtain ⟨hs, ⟨ha, hc⟩ | ⟨ha, hh⟩⟩ := step_next h
  · rcases coreStep_next hc with ⟨hr, ht⟩ | ⟨-, -, -, -, ht⟩ | ⟨r, i, hr, hd, hx⟩
    · exact .inl ⟨hr, ht⟩
    · exact .inr (.inl ⟨ha, ht⟩)
    · exact .inr (.inr (.inl ⟨i, ⟨ha, r, hr, hd⟩, hx⟩))
  · rcases hostStep_next hh with ⟨he, ht⟩ | ⟨e, rest, he, hx⟩
    · exact .inr (.inr (.inr (.inl ⟨he, ht⟩)))
    · exact .inr (.inr (.inr (.inr ⟨e, rest, ⟨hs, ha, he⟩, hx⟩)))

/-! ### Completion (R24, R90) -/

/-- R90: a command that answers a next state has completed. -/
theorem exec_next_running {i : Instr} {s t : State} (h : exec i s = .next t) : t.running = none := by
  rcases exec_next h with ⟨e, -, rfl⟩ | ⟨-, -, rfl⟩ | ⟨-, rfl⟩ | ⟨-, -, rfl⟩ | ⟨-, -, rfl⟩ | ⟨-, -, rfl⟩
    <;> rfl

/-- INPUT answers a next state if its range, where representable, is admitted ordinary memory. -/
theorem execInput_answers {s : State}
    (h : s.operands.inputRange.representable s.platform = true → s.reaches s.operands.inputRange = true) :
    ∃ t, execInput s = .next t := by
  cases hr : s.operands.inputRange.representable s.platform with
  | false => exact ⟨_, execInput_of_wraps hr⟩
  | true =>
    cases hf : s.engine.fin with
    | true => exact ⟨_, execInput_of_fin hr hf⟩
    | false => exact ⟨_, execInput_of_runs ⟨hr, hf, h hr⟩⟩

/-- RESULT answers a next state if its range, where representable, is admitted ordinary memory. -/
theorem execResult_answers {s : State}
    (h : s.operands.resultRange.representable s.platform = true → s.reaches s.operands.resultRange = true) :
    ∃ t, execResult s = .next t := by
  cases hr : s.operands.resultRange.representable s.platform with
  | false => exact ⟨_, execResult_of_wraps hr⟩
  | true =>
    cases hc : s.engine.cor with
    | true => exact ⟨_, execResult_of_cor hr hc⟩
    | false => exact ⟨_, execResult_of_runs ⟨hr, hc, h hr⟩⟩

/-- HMAC answers a next state if its ranges, where representable, are admitted ordinary memory. -/
theorem execHmac_answers {s : State}
    (hm : s.operands.messageRange.representable s.platform = true → s.reaches s.operands.messageRange = true)
    (hk : s.operands.keyRange.representable s.platform = true → s.reaches s.operands.keyRange = true)
    (ho : s.operands.hmacRange.representable s.platform = true → s.reaches s.operands.hmacRange = true) :
    ∃ t, execHmac s = .next t := by
  cases rm : s.operands.messageRange.representable s.platform with
  | false => exact ⟨_, execHmac_of_wraps (.inl rm)⟩
  | true =>
    cases rk : s.operands.keyRange.representable s.platform with
    | false => exact ⟨_, execHmac_of_wraps (.inr (.inl rk))⟩
    | true =>
      cases ro : s.operands.hmacRange.representable s.platform with
      | false => exact ⟨_, execHmac_of_wraps (.inr (.inr ro))⟩
      | true => exact ⟨_, execHmac_of_runs ⟨rm, rk, ro, hm rm, hk rk, ho ro⟩⟩

/-- A command answers a next state if those of its ranges that are representable are admitted ordinary memory. -/
theorem exec_answers {i : Instr} {s : State}
    (h : ∀ g ∈ readRanges i s.operands ++ writeRanges i s.operands,
      g.representable s.platform = true → s.reaches g = true) :
    ∃ t, exec i s = .next t := by
  cases i with
  | reset => exact ⟨_, execReset_eq s⟩
  | input => exact execInput_answers (h _ (by simp [readRanges]))
  | result => exact execResult_answers (h _ (by simp [writeRanges]))
  | hmac =>
    exact execHmac_answers (h _ (by simp [readRanges])) (h _ (by simp [readRanges])) (h _ (by simp [writeRanges]))

/-- While BUSY = 1 an action of HOST leaves the running command, power-on reset apart. -/
theorem externalEvent_running {s t : State} {e : ExternalEvent} (h : externalEvent s e = .next t)
    (hb : s.busy = true) (he : e ≠ .powerOnReset) : t.running = s.running := by
  rcases externalEvent_next h with ⟨-, -, -, -, -, -, hidle, -⟩ | ⟨-, -, -, -, -, rfl⟩ | ⟨-, -, rfl⟩ | ⟨-, -, rfl⟩
    | ⟨-, -, -, -, -, rfl⟩ | ⟨-, -, -, rfl⟩ | ⟨-, -, -, rfl⟩ | ⟨hp, -⟩
  · exact absurd hb (by simp [hidle])
  · rfl
  · rfl
  · rfl
  · rfl
  · rfl
  · rfl
  · exact absurd hp he

/-- While BUSY = 1 HOST's turn leaves the running command, power-on reset apart. -/
theorem step_running_of_host {s t : State} (h : step s = .next t) (ha : s.nextAgent = .host) (hb : s.busy = true)
    (he : s.events.head? ≠ some .powerOnReset) : t.running = s.running := by
  rcases step_cases h with ⟨-, rfl⟩ | ⟨hcore, -⟩ | ⟨-, ⟨hcore, -⟩, -⟩ | ⟨-, rfl⟩ | ⟨e, rest, hact, hx⟩
  · rfl
  · simp [ha] at hcore
  · simp [ha] at hcore
  · rfl
  · obtain ⟨-, -, hev⟩ := hact
    exact externalEvent_running (s := s.afterAction rest) hx hb (by simpa [hev] using he)

/-- CORE's turn completes the accepted command, legal or not, if those of its ranges that are representable are admitted
ordinary memory. -/
theorem step_completes {s : State} {r : Running} (hs : s.engine.sound = true) (ha : s.nextAgent = .core)
    (hr : s.running = some r)
    (h : ∀ i, decode r.word = .instr i → ∀ g ∈ readRanges i r.ops ++ writeRanges i r.ops,
      g.representable s.platform = true → s.reaches g = true) :
    ∃ t, step s = .next t ∧ t.running = none := by
  rw [step_of_core hs ha]
  cases hd : decode r.word with
  | illegal why => exact ⟨_, coreStep_of_illegal hr hd, rfl⟩
  | instr i =>
    rw [coreStep_of_instr (s := s.takeTurn) hr hd]
    have hops : s.takeTurn.operands = r.ops := State.operands_of_running hr
    obtain ⟨t, ht⟩ : ∃ t, exec i s.takeTurn = .next t := exec_answers (by rw [hops]; exact h i hd)
    exact ⟨t, ht, exec_next_running ht⟩

theorem State.busy_of_running_none {s : State} (h : s.running = none) : s.busy = false := by
  simp [State.busy, h]

/-! ### The fields of STATUS and INFO (R23, R24, R28) -/

/-- R23: above the three flags the STATUS word holds ERR from bit 8 on, and zeros. -/
theorem statusWord_getLsbD_of_ge_three (busy fin cor : Bool) (err : Byte) {i : Nat} (h3 : 3 ≤ i) (hi : i < 64) :
    (statusWord busy fin cor err).getLsbD i = (!decide (i < 8) && err.getLsbD (i - 8)) := by
  have hne : i ≠ 0 ∧ i - 1 ≠ 0 ∧ i - 2 ≠ 0 := by omega
  simp [statusWord, hi, hne]

/-- R23: the fields of the STATUS word. -/
theorem statusWord_fields (busy fin cor : Bool) (err : Byte) :
    (statusWord busy fin cor err).getLsbD 0 = busy ∧ (statusWord busy fin cor err).getLsbD 1 = fin
      ∧ (statusWord busy fin cor err).getLsbD 2 = cor ∧ (statusWord busy fin cor err).extractLsb' 3 5 = 0
      ∧ (statusWord busy fin cor err).extractLsb' 8 8 = err
      ∧ (statusWord busy fin cor err).extractLsb' 16 48 = 0 := by
  refine ⟨by simp [statusWord], by simp [statusWord], by simp [statusWord], ?_, ?_, ?_⟩
  · refine BitVec.eq_of_getLsbD_eq fun i hi => ?_
    have hlt : 3 + i < 8 := by omega
    rw [BitVec.getLsbD_extractLsb', statusWord_getLsbD_of_ge_three _ _ _ _ (by omega) (by omega)]
    simp [hlt]
  · refine BitVec.eq_of_getLsbD_eq fun i hi => ?_
    rw [BitVec.getLsbD_extractLsb', statusWord_getLsbD_of_ge_three _ _ _ _ (by omega) (by omega)]
    simp [hi]
  · refine BitVec.eq_of_getLsbD_eq fun i hi => ?_
    rw [BitVec.getLsbD_extractLsb', statusWord_getLsbD_of_ge_three _ _ _ _ (by omega) (by omega),
      BitVec.getLsbD_of_ge _ (16 + i - 8) (by omega)]
    simp

/-- R23, R24: what STATUS reads as while BUSY = 1 has BUSY set and its reserved bits 0, whatever value is drawn. -/
theorem busyStatus_fields (draw : Nat) :
    (busyStatus draw).getLsbD 0 = true ∧ (busyStatus draw).extractLsb' 3 5 = 0
      ∧ (busyStatus draw).extractLsb' 16 48 = 0 := by
  have mask_low : (0xFF06 : Word).extractLsb' 3 5 = 0#5 := by decide
  have mask_high : (0xFF06 : Word).extractLsb' 16 48 = 0#48 := by decide
  refine ⟨by simp [busyStatus], ?_, ?_⟩
  · rw [busyStatus, BitVec.extractLsb'_or, BitVec.extractLsb'_and, mask_low, BitVec.and_zero]
    rfl
  · rw [busyStatus, BitVec.extractLsb'_or, BitVec.extractLsb'_and, mask_high, BitVec.and_zero]
    rfl

theorem State.readReg_status_of_busy {s : State} (h : s.busy = true) : s.readReg .status = busyStatus s.draws := by
  simp [State.readReg, h]

theorem infoWord_eq : infoWord = 0x0000020000400080 := by decide

/-! ### The engine's flags (R36, R37) -/

/-- The engine changes by which a command can leave its engine (R38, R120, R130, R132, R140). -/
theorem exec_next_engine {i : Instr} {s t : State} (h : exec i s = .next t) :
    t.engine = s.engine
    ∨ (i = .reset ∧ t.engine = Engine.init)
    ∨ (i = .input ∧ s.engine.fin = true ∧ t.engine = { s.engine with cor := true } ∧ t.err = 0x03)
    ∨ (i = .input ∧ ∃ bs, t.engine = s.engine.absorb bs)
    ∨ (i = .result ∧ t.engine = s.engine.forResult ∧ t.err = 0x00) := by
  rcases exec_next h with ⟨e, -, rfl⟩ | ⟨hi, hf, rfl⟩ | ⟨hi, rfl⟩ | ⟨hi, -, rfl⟩ | ⟨hi, -, rfl⟩ | ⟨-, -, rfl⟩
  · exact .inl rfl
  · exact .inr (.inr (.inl ⟨hi, hf, rfl, rfl⟩))
  · exact .inr (.inl ⟨hi, rfl⟩)
  · exact .inr (.inr (.inr (.inl ⟨hi, _, s.afterInput_engine⟩)))
  · exact .inr (.inr (.inr (.inr ⟨hi, s.afterResult_engine, rfl⟩)))
  · exact .inl s.afterHmac_engine

/-- An action of the outside world leaves the engine, power-on reset apart. -/
theorem externalEvent_next_engine {s t : State} {e : ExternalEvent} (h : externalEvent s e = .next t) :
    t.engine = s.engine ∨ (e = .powerOnReset ∧ t.engine = Engine.init) := by
  rcases externalEvent_next h with ⟨-, -, v, r, -, -, -, rfl⟩ | ⟨-, -, -, -, -, rfl⟩ | ⟨-, -, rfl⟩ | ⟨-, -, rfl⟩
    | ⟨-, -, -, -, -, rfl⟩ | ⟨-, -, -, rfl⟩ | ⟨-, -, -, rfl⟩ | ⟨hp, rfl⟩
  · exact .inl (s.writeReg_engine r v)
  · exact .inl rfl
  · exact .inl rfl
  · exact .inl rfl
  · exact .inl rfl
  · exact .inl rfl
  · exact .inl rfl
  · exact .inr ⟨hp, rfl⟩

/-- Everything a step can do to the engine: nothing, a reset by RESET or by the reset input, COR set by INPUT after
finalization, bytes absorbed by INPUT, or RESULT's finalization. -/
theorem step_next_engine {s t : State} (h : step s = .next t) :
    t.engine = s.engine
    ∨ ((s.runsNow .reset ∨ ∃ rest, s.actsNow .powerOnReset rest) ∧ t.engine = Engine.init)
    ∨ (s.runsNow .input ∧ s.engine.fin = true ∧ t.engine = { s.engine with cor := true } ∧ t.err = 0x03)
    ∨ (s.runsNow .input ∧ ∃ bs, t.engine = s.engine.absorb bs)
    ∨ (s.runsNow .result ∧ t.engine = s.engine.forResult ∧ t.err = 0x00) := by
  rcases step_cases h with ⟨-, rfl⟩ | ⟨-, rfl⟩ | ⟨i, hi, hx⟩ | ⟨-, rfl⟩ | ⟨e, rest, hact, hx⟩
  · exact .inl rfl
  · exact .inl rfl
  · rcases exec_next_engine hx with he | ⟨rfl, he⟩ | ⟨rfl, hf, he, herr⟩ | ⟨rfl, he⟩ | ⟨rfl, he, herr⟩
    · exact .inl he
    · exact .inr (.inl ⟨.inl hi, he⟩)
    · exact .inr (.inr (.inl ⟨hi, hf, he, herr⟩))
    · exact .inr (.inr (.inr (.inl ⟨hi, he⟩)))
    · exact .inr (.inr (.inr (.inr ⟨hi, he, herr⟩)))
  · exact .inl rfl
  · rcases externalEvent_next_engine hx with he | ⟨rfl, he⟩
    · exact .inl he
    · exact .inr (.inl ⟨.inr ⟨rest, hact⟩, he⟩)

theorem Engine.forResult_of_fin {e : Engine} (h : e.fin = true) : e.forResult = e := if_pos h

@[simp] theorem Engine.forResult_fin (e : Engine) : e.forResult.fin = true := by
  unfold Engine.forResult
  split
  · assumption
  · rfl

@[simp] theorem Engine.forResult_cor (e : Engine) : e.forResult.cor = e.cor := by
  unfold Engine.forResult
  split <;> rfl

/-- R36: a step that sets FIN runs RESULT, which reports OK. -/
theorem step_sets_fin {s t : State} (h : step s = .next t) (hs : s.engine.fin = false) (ht : t.engine.fin = true) :
    s.runsNow .result ∧ t.err = 0x00 := by
  rcases step_next_engine h with he | ⟨-, he⟩ | ⟨-, -, he, -⟩ | ⟨-, bs, he⟩ | ⟨hr, -, herr⟩
  · simp [he, hs] at ht
  · simp [he, Engine.init] at ht
  · simp [he, hs] at ht
  · simp [he, hs] at ht
  · exact ⟨hr, herr⟩

/-- R36: a step that clears FIN runs RESET or is power-on reset. -/
theorem step_clears_fin {s t : State} (h : step s = .next t) (hs : s.engine.fin = true) (ht : t.engine.fin = false) :
    s.runsNow .reset ∨ ∃ rest, s.actsNow .powerOnReset rest := by
  rcases step_next_engine h with he | ⟨hr, -⟩ | ⟨-, -, he, -⟩ | ⟨-, bs, he⟩ | ⟨-, he, -⟩
  · simp [he, hs] at ht
  · exact hr
  · simp [he, hs] at ht
  · simp [he, hs] at ht
  · simp [he] at ht

/-- R37: a step that sets COR runs INPUT while FIN = 1, which reports ALREADY_FINALIZED. -/
theorem step_sets_cor {s t : State} (h : step s = .next t) (hs : s.engine.cor = false) (ht : t.engine.cor = true) :
    s.runsNow .input ∧ s.engine.fin = true ∧ t.err = 0x03 := by
  rcases step_next_engine h with he | ⟨-, he⟩ | ⟨hr, hf, -, herr⟩ | ⟨-, bs, he⟩ | ⟨-, he, -⟩
  · simp [he, hs] at ht
  · simp [he, Engine.init] at ht
  · exact ⟨hr, hf, herr⟩
  · simp [he, hs] at ht
  · simp [he, hs] at ht

/-- R37: a step that clears COR runs RESET or is power-on reset. -/
theorem step_clears_cor {s t : State} (h : step s = .next t) (hs : s.engine.cor = true) (ht : t.engine.cor = false) :
    s.runsNow .reset ∨ ∃ rest, s.actsNow .powerOnReset rest := by
  rcases step_next_engine h with he | ⟨hr, -⟩ | ⟨-, -, he, -⟩ | ⟨-, bs, he⟩ | ⟨-, he, -⟩
  · simp [he, hs] at ht
  · exact hr
  · simp [he] at ht
  · simp [he, hs] at ht
  · simp [he, hs] at ht

/-- R240: only OK has the code 0. -/
theorem errCode_ne_ok {e : Err} (h : e ≠ .ok) : errCode e ≠ 0x00 :=
  fun h0 => h (errCode_injective h0)

/-- R36: INPUT while FIN = 1 reports an error and leaves H. -/
theorem execInput_errs_of_fin {s : State} (hf : s.engine.fin = true) :
    ∃ t, execInput s = .next t ∧ t.err ≠ 0x00 ∧ t.engine.h = s.engine.h := by
  cases hr : s.operands.inputRange.representable s.platform with
  | false => exact ⟨_, execInput_of_wraps hr, errCode_ne_ok (e := .invalidArgument) (by decide), rfl⟩
  | true => exact ⟨_, execInput_of_fin hr hf, errCode_ne_ok (e := .alreadyFinalized) (by decide), rfl⟩

/-- R143: RESULT while FIN = 1 writes the digest of the engine as it stands, and leaves the engine. -/
theorem afterResult_of_fin {s : State} (hm : s.mem.wf = true) (hf : s.engine.fin = true) :
    s.afterResult.mem.readBytes s.operands.arg0.toNat 64 = serialise s.engine.h
      ∧ s.afterResult.engine = s.engine := by
  have he : s.engine.forResult = s.engine := Engine.forResult_of_fin hf
  refine ⟨?_, by rw [State.afterResult_engine, he]⟩
  have hread := Memory.readBytes_writeBytes hm s.operands.resultRange.base (serialise s.engine.h)
  rw [length_serialise] at hread
  rw [State.afterResult_mem, he]
  exact hread

/-! ### The constants as roots of primes (R32, R179) -/

theorem firstPrimes_eq : firstPrimes =
    [2, 3, 5, 7, 11, 13, 17, 19, 23, 29, 31, 37, 41, 43, 47, 53, 59, 61, 67, 71, 73, 79, 83, 89, 97, 101, 103, 107,
      109, 113, 127, 131, 137, 139, 149, 151, 157, 163, 167, 173, 179, 181, 191, 193, 197, 199, 211, 223, 227, 229,
      233, 239, 241, 251, 257, 263, 269, 271, 277, 281, 283, 293, 307, 311, 313, 317, 331, 337, 347, 349, 353, 359,
      367, 373, 379, 383, 389, 397, 401, 409] := by
  decide +kernel

/-- R32: with its whole part before it, each word of the IV is the square root of its prime in units of 2^-64, rounded down. -/
theorem iv_eq_sqrt : ∀ i < 8, ∃ q < 5,
    (q * 2 ^ 64 + (State.reset.engine.h.toList.getD i 0).toNat) ^ 2 ≤ firstPrimes.getD i 0 * 2 ^ 128
      ∧ firstPrimes.getD i 0 * 2 ^ 128 < (q * 2 ^ 64 + (State.reset.engine.h.toList.getD i 0).toNat + 1) ^ 2 := by
  rw [firstPrimes_eq]
  decide +kernel

/-- R179: with its whole part before it, each round constant is the cube root of its prime in units of 2^-64, rounded down. -/
theorem roundConstants_eq_cbrt : ∀ t < 80, ∃ q < 8,
    (q * 2 ^ 64 + (roundConstants.getD t 0).toNat) ^ 3 ≤ firstPrimes.getD t 0 * 2 ^ 192
      ∧ firstPrimes.getD t 0 * 2 ^ 192 < (q * 2 ^ 64 + (roundConstants.getD t 0).toNat + 1) ^ 3 := by
  rw [firstPrimes_eq]
  decide +kernel

/-! ### The obligations -/

/-- Settles O12: acceptance and CORE's completion by the two agents' turns, HOST's turns by the cases of its action. -/
theorem everyCommandCompletes : Obligations.EveryCommandCompletes := by
  unfold Obligations.EveryCommandCompletes
  refine ⟨fun s w rest h hb => ?_, fun s t h ha hb he => step_running_of_host h ha hb he,
    fun s r hs ha hr h => ?_, fun s rest h hb => ?_⟩
  · exact ⟨_, step_of_regWrite (r := .cmd) h hb, rfl⟩
  · obtain ⟨t, ht, hidle⟩ := step_completes hs ha hr h
    have hb := State.busy_of_running_none hidle
    exact ⟨t, ht, hb, by rw [State.status, hb]⟩
  · refine ⟨_, _, step_of_regRead (r := .status) h, State.observeReg_observed _ _, ?_⟩
    rw [State.afterAction_readReg, State.readReg_status_of_busy hb]
    exact (busyStatus_fields s.draws).1

/-- Settles O45, from what a step can do to the engine. -/
theorem finalizedFlagRule : Obligations.FinalizedFlagRule := by
  unfold Obligations.FinalizedFlagRule
  refine ⟨rfl, fun s t => step_sets_fin, fun s t => step_clears_fin, fun s hf => execInput_errs_of_fin hf,
    fun s h => ⟨_, execResult_of_runs h, by simp⟩, fun s hm hf h => ?_⟩
  exact ⟨_, execResult_of_runs h, afterResult_of_fin hm hf⟩

/-- Settles O46, from what a step can do to the engine. -/
theorem corruptedFlagRule : Obligations.CorruptedFlagRule := by
  unfold Obligations.CorruptedFlagRule
  exact ⟨rfl, fun s t => step_sets_cor, fun s t => step_clears_cor,
    fun s hc hr => ⟨_, execResult_of_cor hr hc, rfl, rfl, rfl⟩⟩

/-- Settles O32, by evaluating the roots against the list of the primes. -/
theorem constantsArePrimeRoots : Obligations.ConstantsArePrimeRoots := by
  unfold Obligations.ConstantsArePrimeRoots
  refine ⟨by rw [firstPrimes_eq]; rfl, length_roundConstants, fun i hi => ?_, fun t ht => ?_⟩
  · obtain ⟨q, -, hq⟩ := iv_eq_sqrt i hi
    exact ⟨q, hq⟩
  · obtain ⟨q, -, hq⟩ := roundConstants_eq_cbrt t ht
    exact ⟨q, hq⟩

/-- Settles O35, bit by bit. -/
theorem statusLayout : Obligations.StatusLayout := by
  unfold Obligations.StatusLayout
  refine ⟨fun s => statusWord_fields _ _ _ _, fun s hb => ?_, by decide,
    fun s v rest h hb => step_of_regWrite (r := .status) h hb⟩
  rw [State.readReg_status_of_busy hb]
  exact busyStatus_fields s.draws

/-- Settles O36, from the value of INFO's word. -/
theorem infoIsConstant : Obligations.InfoIsConstant := by
  unfold Obligations.InfoIsConstant
  refine ⟨fun s rest h => ?_, by decide, by decide, by decide, by decide,
    fun s v rest h hb => step_of_regWrite (r := .info) h hb⟩
  rw [step_of_regRead (r := .info) h, ← infoWord_eq]
  rfl

end Sys2Proof.Machine
end

section
/-! Host memory and the ranges that operands name in it (spec/20_memory.md). The obligations of this family stand at the end. -/

namespace Sys2Proof.Machine

/-! ### Ranges of the same bytes (R61, R66) -/

/-- R61, R66: two ranges name the same bytes: they are equal, or both are empty, whatever their addresses. -/
def Range.SameBytes (g g' : Range) : Prop := g = g' ∨ (g.len = 0 ∧ g'.len = 0)

section SameBytes
variable {g g' : Range}

theorem Range.SameBytes.representable (h : g.SameBytes g') (p : Platform) : g.representable p = g'.representable p := by
  rcases h with rfl | ⟨hl, hl'⟩
  · rfl
  · simp [Range.representable, hl, hl']

theorem Range.SameBytes.readRange (h : g.SameBytes g') (m : Memory) : m.readRange g = m.readRange g' := by
  rcases h with rfl | ⟨hl, hl'⟩
  · rfl
  · simp [Memory.readRange, hl, hl', Memory.readBytes]

theorem Range.SameBytes.memAdmitFrom (h : g.SameBytes g') (p : Platform) :
    memAdmitFrom p g.base g.len = memAdmitFrom p g'.base g'.len := by
  rcases h with rfl | ⟨hl, hl'⟩
  · rfl
  · simp [hl, hl', Machine.memAdmitFrom]

theorem Range.SameBytes.memOrdinaryFrom (h : g.SameBytes g') (p : Platform) :
    memOrdinaryFrom p g.base g.len = memOrdinaryFrom p g'.base g'.len := by
  rcases h with rfl | ⟨hl, hl'⟩
  · rfl
  · simp [hl, hl', Machine.memOrdinaryFrom]

/-- A check that sees a range by its bytes only gives ranges of the same bytes the same answer. -/
theorem Range.SameBytes.all_congr {gs gs' : List Range} {check : Range → Bool}
    (h : List.Forall₂ Range.SameBytes gs gs') (hcheck : ∀ {g g'}, g.SameBytes g' → check g = check g') :
    gs.all check = gs'.all check := by
  induction h with
  | nil => rfl
  | cons hg _ ih => rw [List.all_cons, List.all_cons, hcheck hg, ih]

end SameBytes

/-- R61: on one platform, ranges of the same bytes are accessed with the same outcome. -/
theorem State.accessing_congr {s s' : State} {gs gs' : List Range} (hp : s.platform = s'.platform)
    (h : List.Forall₂ Range.SameBytes gs gs') (k : StepResult) : s.accessing gs k = s'.accessing gs' k := by
  have hadmit := Range.SameBytes.all_congr h fun hg => hg.memAdmitFrom s.platform
  have hordinary := Range.SameBytes.all_congr h fun hg => hg.memOrdinaryFrom s.platform
  rw [State.accessing, State.accessing, hadmit, hordinary, hp]

/-- R65: a range that two registers name wraps exactly if it is not empty and its exact end passes the top of memory. -/
theorem rangeOf_not_representable_iff {p : Platform} {a n : Word} :
    (rangeOf a n).representable p = false ↔ n.toNat ≠ 0 ∧ 2 ^ p.addrWidth < a.toNat + n.toNat :=
  Range.not_representable_iff

/-! ### Empty operands (R66) -/

/-- Ranges of length 0 name the same bytes: none. -/
theorem rangeOf_zero_sameBytes {a a' n : Word} (h : n = 0) : (rangeOf a n).SameBytes (rangeOf a' n) := by
  subst h
  exact .inr ⟨rfl, rfl⟩

/-- R66: INPUT of no bytes runs whatever its address, if FIN = 0. -/
theorem State.inputRuns_of_empty {s : State} (hl : s.operands.arg1 = 0) (hf : s.engine.fin = false) : s.InputRuns := by
  have hlen : s.operands.inputRange.len = 0 := congrArg BitVec.toNat hl
  refine ⟨Range.representable_iff.mpr (.inl hlen), hf, ?_⟩
  rw [State.reaches, hlen]
  rfl

/-- R66: INPUT of no bytes leaves everything but ERR and BUSY; no block fills up, since BLEN < 128. -/
theorem State.afterInput_of_empty {s : State} (hs : s.engine.sound = true) (hl : s.operands.arg1 = 0) :
    s.afterInput = s.finish .ok := by
  have hlen : s.operands.inputRange.len = 0 := congrArg BitVec.toNat hl
  have hread : s.mem.readRange s.operands.inputRange = [] :=
    List.length_eq_zero_iff.mp (by rw [Memory.length_readRange, hlen])
  have hblocks : s.engine.absorbBlocks 0 = 0 := Nat.div_eq_of_lt ((Engine.sound_iff _).mp hs).1
  rw [State.afterInput, hread, hlen, hblocks]
  rfl

/-! ### HMAC and the bytes its operands name (R61, R66, R210) -/

section HmacCongr
variable {s : State} {run : Option Running}

/-- HMAC's effect depends on its operands by the bytes of the message and the key and by the output's address only. -/
theorem State.afterHmac_congr
    (hm : ({ s with running := run } : State).operands.messageRange.SameBytes s.operands.messageRange)
    (hk : ({ s with running := run } : State).operands.keyRange.SameBytes s.operands.keyRange)
    (ho : ({ s with running := run } : State).operands.hmacRange = s.operands.hmacRange) :
    ({ s with running := run } : State).afterHmac = s.afterHmac := by
  rw [State.afterHmac, hm.readRange, hk.readRange, ho]
  rfl

/-- HMAC's outcome depends on its operands by the bytes of the message and the key and by the output's range only. -/
theorem execHmac_congr
    (hm : ({ s with running := run } : State).operands.messageRange.SameBytes s.operands.messageRange)
    (hk : ({ s with running := run } : State).operands.keyRange.SameBytes s.operands.keyRange)
    (ho : ({ s with running := run } : State).operands.hmacRange = s.operands.hmacRange) :
    execHmac { s with running := run } = execHmac s := by
  have hm' := hm.representable s.platform
  have hk' := hk.representable s.platform
  by_cases hw : s.operands.messageRange.representable s.platform = false
      ∨ s.operands.keyRange.representable s.platform = false
      ∨ s.operands.hmacRange.representable s.platform = false
  · rw [execHmac_of_wraps hw, execHmac_of_wraps (by rwa [hm', hk', ho])]
    rfl
  · simp only [not_or, Bool.not_eq_false] at hw
    obtain ⟨rm, rk, ro⟩ := hw
    rw [execHmac_accesses rm rk ro, execHmac_accesses (hm'.trans rm) (hk'.trans rk) (by rwa [ho]),
      State.afterHmac_congr hm hk ho]
    exact State.accessing_congr rfl (.cons hm (.cons hk (.cons (.inl ho) .nil))) _

end HmacCongr

/-! ### The obligations -/

/-- Settles O15: INPUT of no bytes absorbs nothing, and HMAC sees of its message and key only the bytes they name. -/
theorem zeroLengthOperandsAccessNothing : Obligations.ZeroLengthOperandsAccessNothing := by
  unfold Obligations.ZeroLengthOperandsAccessNothing
  refine ⟨fun s hs hl hf => ?_, fun s r a hr hl => ?_, fun s r a hr hl => ?_,
    fun p a => Range.representable_iff.mpr (.inl rfl)⟩
  · exact (execInput_of_runs (State.inputRuns_of_empty hl hf)).trans
      (congrArg Host.Outcome.next (State.afterInput_of_empty hs hl))
  · have hop : s.operands = r.ops := State.operands_of_running hr
    refine execHmac_congr ?_ ?_ ?_ <;> rw [hop]
    · exact rangeOf_zero_sameBytes hl
    · exact .inl rfl
    · rfl
  · have hop : s.operands = r.ops := State.operands_of_running hr
    refine execHmac_congr ?_ ?_ ?_ <;> rw [hop]
    · exact .inl rfl
    · exact rangeOf_zero_sameBytes hl
    · rfl

/-- Settles O16: a range fails the check exactly if its exact end passes the top, and each command checks its ranges first. -/
theorem rangeCheckComesFirst : Obligations.RangeCheckComesFirst := by
  unfold Obligations.RangeCheckComesFirst
  refine ⟨fun p a n => Range.representable_iff, fun s hl htop => ?_, fun s htop => ?_, fun s h => ?_⟩
  · exact execInput_of_wraps (rangeOf_not_representable_iff.mpr ⟨hl, htop⟩)
  · exact execResult_of_wraps (outRange_not_representable_iff.mpr htop)
  · rcases h with hmsg | hkey | hout
    · exact execHmac_of_wraps (.inl (rangeOf_not_representable_iff.mpr hmsg))
    · exact execHmac_of_wraps (.inr (.inl (rangeOf_not_representable_iff.mpr hkey)))
    · exact execHmac_of_wraps (.inr (.inr (outRange_not_representable_iff.mpr hout)))

end Sys2Proof.Machine
end

section
/-! The decoder (spec/30_encoding.md): each field of the command word, the opcode map, and the words it accepts and rejects.
The obligations of this family stand at the end. -/

namespace Sys2Proof.Machine

/-! ### The opcode map (R93) -/

/-- R93: every opcode is a command's or is unassigned: 0x00, or 0x05 and above. -/
theorem decodeOpcode_cases (opc : BitVec 8) :
    (∃ i : Instr, opc = i.opcode ∧ decodeOpcode opc = .instr i)
    ∨ ((opc.toNat = 0 ∨ 5 ≤ opc.toNat) ∧ decodeOpcode opc = .illegal .unassignedOpcode) := by
  unfold decodeOpcode
  split_ifs with h1 h2 h3 h4
  · exact .inl ⟨.reset, h1, rfl⟩
  · exact .inl ⟨.input, h2, rfl⟩
  · exact .inl ⟨.result, h3, rfl⟩
  · exact .inl ⟨.hmac, h4, rfl⟩
  · exact .inr ⟨by bv_omega, rfl⟩

theorem opcode_toNat_bounds (i : Instr) : 1 ≤ i.opcode.toNat ∧ i.opcode.toNat ≤ 4 := by cases i <;> decide

@[simp] theorem decodeOpcode_opcode (i : Instr) : decodeOpcode i.opcode = .instr i := by cases i <;> decide

theorem decodeOpcode_eq_instr_iff {opc : BitVec 8} {i : Instr} : decodeOpcode opc = .instr i ↔ opc = i.opcode := by
  refine ⟨fun h => ?_, fun h => by rw [h, decodeOpcode_opcode]⟩
  rcases decodeOpcode_cases opc with ⟨j, hj, hd⟩ | ⟨-, hd⟩
  · obtain rfl : j = i := DecodeResult.instr.inj (hd.symm.trans h)
    exact hj
  · simp [hd] at h

theorem decodeOpcode_eq_unassignedOpcode_iff {opc : BitVec 8} :
    decodeOpcode opc = .illegal .unassignedOpcode ↔ opc.toNat = 0 ∨ 5 ≤ opc.toNat := by
  rcases decodeOpcode_cases opc with ⟨i, rfl, hd⟩ | ⟨hrange, hd⟩
  · have hassigned := opcode_toNat_bounds i
    simp only [hd, reduceCtorEq, false_iff]
    omega
  · exact ⟨fun _ => hrange, fun _ => hd⟩

theorem decodeOpcode_ne_reservedBits (opc : BitVec 8) : decodeOpcode opc ≠ .illegal .reservedBits := by
  rcases decodeOpcode_cases opc with ⟨i, -, hd⟩ | ⟨-, hd⟩ <;> simp [hd]

/-! ### The command word (R91, R94, R95) -/

/-- R91: the two fields are the whole word. -/
theorem wordOfFields_fieldsOfWord (w : Word) : wordOfFields (fieldsOfWord w) = w :=
  (BitVec.extractLsb'_append_extractLsb'_eq_extractLsb' rfl).trans BitVec.extractLsb'_eq_self

/-- R94: a word with a reserved bit set is illegal, whatever its opcode. -/
theorem decode_of_rsvd_ne {w : Word} (h : (fieldsOfWord w).rsvd ≠ 0) : decode w = .illegal .reservedBits := if_pos h

/-- R94: a word with no reserved bit set is decoded by its opcode. -/
theorem decode_of_rsvd_eq {w : Word} (h : (fieldsOfWord w).rsvd = 0) :
    decode w = decodeOpcode (fieldsOfWord w).opc := if_neg (not_not_intro h)

theorem decode_eq_reservedBits_iff {w : Word} : decode w = .illegal .reservedBits ↔ (fieldsOfWord w).rsvd ≠ 0 := by
  refine ⟨fun h hz => ?_, decode_of_rsvd_ne⟩
  rw [decode_of_rsvd_eq hz] at h
  exact decodeOpcode_ne_reservedBits _ h

theorem decode_eq_unassignedOpcode_iff {w : Word} : decode w = .illegal .unassignedOpcode ↔
    (fieldsOfWord w).rsvd = 0 ∧ ((fieldsOfWord w).opc.toNat = 0 ∨ 5 ≤ (fieldsOfWord w).opc.toNat) := by
  by_cases hz : (fieldsOfWord w).rsvd = 0
  · rw [decode_of_rsvd_eq hz, decodeOpcode_eq_unassignedOpcode_iff, and_iff_right hz]
  · exact iff_of_false (by simp [decode_of_rsvd_ne hz]) fun h => hz h.1

/-- R95: a command is decoded from its own word and from no other. -/
theorem decode_eq_instr_iff {w : Word} {i : Instr} : decode w = .instr i ↔ w = encode i := by
  refine ⟨fun h => ?_, fun h => by rw [h, decode_encode_eq]⟩
  by_cases hz : (fieldsOfWord w).rsvd = 0
  · rw [decode_of_rsvd_eq hz, decodeOpcode_eq_instr_iff] at h
    calc w = wordOfFields (fieldsOfWord w) := (wordOfFields_fieldsOfWord w).symm
      _ = encode i := by rw [encode, ← hz, ← h]
  · simp [decode_of_rsvd_ne hz] at h

/-- R94, R95: a word that is no command's is illegal. -/
theorem decode_illegal_of_ne_encode {w : Word} (h : ∀ i, w ≠ encode i) : ∃ why, decode w = .illegal why := by
  cases hd : decode w with
  | instr i => exact absurd (decode_eq_instr_iff.mp hd) (h i)
  | illegal why => exact ⟨why, rfl⟩

/-- R94: CORE's turn on an illegal word. -/
theorem step_of_illegal {s : State} {r : Running} {why : DecodeReject} (hs : s.engine.sound = true)
    (ha : s.nextAgent = .core) (hr : s.running = some r) (hd : decode r.word = .illegal why) :
    step s = .next (s.takeTurn.finish .illegalCommand) :=
  (step_of_core hs ha).trans (coreStep_of_illegal (s := s.takeTurn) hr hd)

/-! ### The obligations -/

/-- Settles O9, by the decoder's cases: the reserved bits first, then the opcode map. -/
theorem opcodeMapIsExact : Obligations.OpcodeMapIsExact := by
  unfold Obligations.OpcodeMapIsExact
  refine ⟨fun w => ⟨decode_eq_instr_iff, decode_eq_instr_iff, decode_eq_instr_iff, decode_eq_instr_iff,
    decode_eq_reservedBits_iff, decode_eq_unassignedOpcode_iff⟩, fun s r hs ha hr h1 h2 h3 h4 => ?_⟩
  have hword : ∀ i, r.word ≠ encode i
    | .reset => h1
    | .input => h2
    | .result => h3
    | .hmac => h4
  obtain ⟨why, hd⟩ := decode_illegal_of_ne_encode hword
  exact step_of_illegal hs ha hr hd

end Sys2Proof.Machine
end

section
/-! The hash engine (spec/40_engine.md): the padded tail and its length field, the digest's bytes, the one-shot hash as the digest
of the whole message, and what RESULT and a run of RESET, INPUTs and RESULT do. The obligations of this family stand at the
end. -/

namespace Sys2Proof.Machine

/-! ### Big-endian numbers and the digest's bytes (R7, R142) -/

/-- R7: the number that a byte sequence encodes, the most significant byte first. -/
def beNat (bs : List Byte) : Nat := bs.foldl (fun n b => n * 256 + b.toNat) 0

theorem beWord_eq_ofNat_beNat (bs : List Byte) : beWord bs = BitVec.ofNat 64 (beNat bs) := rfl

/-- Reading on from the number `a`, the n bytes of BE_n(v) append their n base-256 digits to it. -/
theorem foldl_beBytes (n v a : Nat) :
    (beBytes n v).foldl (fun n b => n * 256 + b.toNat) a = a * 256 ^ n + v % 256 ^ n := by
  induction n generalizing a with
  | zero => simp [beBytes, Nat.mod_one]
  | succ n ih =>
    rw [beBytes, List.foldl_cons, ih, BitVec.toNat_ofNat]
    calc (a * 256 + v / 256 ^ n % 256) * 256 ^ n + v % 256 ^ n
        = a * 256 ^ (n + 1) + (v % 256 ^ n + 256 ^ n * (v / 256 ^ n % 256)) := by ring
      _ = a * 256 ^ (n + 1) + v % 256 ^ (n + 1) := by rw [← Nat.mod_mul, ← Nat.pow_succ]

/-- R7: BE_n(v) encodes v mod 256^n. -/
theorem beNat_beBytes (n v : Nat) : beNat (beBytes n v) = v % 256 ^ n := by
  rw [beNat, foldl_beBytes, Nat.zero_mul, Nat.zero_add]

/-- R7: byte k of BE_n(v) is digit n - 1 - k of v in base 256. -/
theorem getElem?_beBytes {n k : Nat} (v : Nat) (h : k < n) :
    (beBytes n v)[k]? = some (BitVec.ofNat 8 (v / 256 ^ (n - 1 - k))) := by
  induction n generalizing k with
  | zero => omega
  | succ n ih =>
    cases k with
    | zero => rfl
    | succ k =>
      rw [beBytes, List.getElem?_cons_succ, ih (by omega)]
      congr 4
      omega

/-- R7: byte k of a word's big-endian encoding is bits 63 - 8k to 56 - 8k of the word. -/
theorem getElem?_beBytes_word (w : Word) {k : Nat} (h : k < 8) :
    (beBytes 8 w.toNat)[k]? = some (w.extractLsb' (56 - 8 * k) 8) := by
  rw [getElem?_beBytes _ h]
  congr 1
  refine BitVec.eq_of_toNat_eq ?_
  rw [BitVec.toNat_ofNat, BitVec.extractLsb'_toNat, Nat.shiftRight_eq_div_pow,
    show 56 - 8 * k = 8 * (8 - 1 - k) by omega, Nat.pow_mul]

/-- In a concatenation of pieces of one length n, entry n i + k is entry k of piece i. -/
theorem getElem?_flatMap_of_length {α β : Type} {f : α → List β} {n : Nat} (hf : ∀ x, (f x).length = n)
    {l : List α} {x : α} {i k : Nat} (hx : l[i]? = some x) (hk : k < n) :
    (l.flatMap f)[n * i + k]? = (f x)[k]? := by
  induction l generalizing i with
  | nil => simp at hx
  | cons y l ih =>
    cases i with
    | zero =>
      obtain rfl : y = x := by simpa using hx
      rw [List.flatMap_cons, Nat.mul_zero, Nat.zero_add, List.getElem?_append_left (by rw [hf]; exact hk)]
    | succ i =>
      rw [List.flatMap_cons, Nat.mul_succ, List.getElem?_append_right (by rw [hf]; omega), hf,
        show n * i + n + k - n = n * i + k by omega]
      exact ih (by simpa using hx)

/-! ### The padded tail (R140, R144, R145) -/

theorem finalBlocks_of_le {l : Nat} (h : l ≤ 111) : finalBlocks l = 1 := if_pos h

theorem finalBlocks_of_ge {l : Nat} (h : 112 ≤ l) : finalBlocks l = 2 := if_neg (by omega)

/-- R140: the length field is the last 16 bytes of the padded tail. -/
theorem Engine.drop_padded (e : Engine) : e.padded.drop (e.padded.length - 16) = beBytes 16 e.bitLength := by
  rw [Engine.padded]
  exact List.drop_left' (by simp; omega)

/-- R145: the length field encodes the bit length, which is below 2^128. -/
theorem Engine.beNat_lengthField (e : Engine) :
    beNat (e.padded.drop (e.padded.length - 16)) = 8 * (e.total.toNat + e.blen) % 2 ^ 128 := by
  rw [Engine.drop_padded, beNat_beBytes, Engine.bitLength, show 256 ^ 16 = 2 ^ 128 by norm_num, Nat.mod_mod]

/-! ### A message absorbed from reset (R131, R145) -/

/-- What absorbing a whole message from reset does: its whole blocks are compressed from the IV and the rest is buffered. -/
theorem Engine.init_absorb (m : List Byte) :
    (Engine.init.absorb m).h = compress iv m (m.length / 128)
      ∧ (Engine.init.absorb m).blen = m.length % 128
      ∧ (Engine.init.absorb m).buffered = m.drop (128 * (m.length / 128))
      ∧ (Engine.init.absorb m).total = BitVec.ofNat 128 (128 * (m.length / 128)) := by
  have h := Engine.absorb_blocks Engine.init m (by decide)
  have hh : Engine.init.h = iv := rfl
  have hbuf : Engine.init.buffered = [] := rfl
  have htotal : Engine.init.total = 0#128 := rfl
  simpa only [hh, hbuf, htotal, List.nil_append, BitVec.zero_add] using h

/-- R145: from reset, TOTAL + BLEN is the message's length mod 2^128. -/
theorem Engine.init_absorb_length (m : List Byte) :
    ((Engine.init.absorb m).total.toNat + (Engine.init.absorb m).blen) % 2 ^ 128 = m.length % 2 ^ 128 := by
  obtain ⟨-, hblen, -, htotal⟩ := Engine.init_absorb m
  rw [hblen, htotal, BitVec.toNat_ofNat, Nat.mod_add_mod, Nat.div_add_mod]

/-- R145: from reset, the length field's value is the message's length in bits, mod 2^128. -/
theorem Engine.init_absorb_bitLength (m : List Byte) :
    (Engine.init.absorb m).bitLength = 8 * m.length % 2 ^ 128 := by
  rw [Engine.bitLength, Nat.mul_mod, Engine.init_absorb_length, ← Nat.mul_mod]

/-! ### The one-shot hash is the digest of the whole message (R11, R140, R213) -/

/-- R140: the zeros of the padded tail are those that the whole message is padded with. -/
theorem finalBlocks_zeros {l : Nat} (h : l < 128) : 128 * finalBlocks l - l - 17 = (239 - l) % 128 := by
  rcases Nat.lt_or_ge l 112 with hl | hl
  · rw [finalBlocks_of_le (by omega)]
    omega
  · rw [finalBlocks_of_ge hl]
    omega

/-- The padded message is the message's whole blocks followed by the padded tail of the engine that absorbed it. -/
theorem paddedMessage_eq (m : List Byte) :
    paddedMessage m = m.take (128 * (m.length / 128)) ++ (Engine.init.absorb m).padded := by
  obtain ⟨-, hblen, hbuf, -⟩ := Engine.init_absorb m
  have htail : (Engine.init.absorb m).padded = m.drop (128 * (m.length / 128)) ++ [0x80]
      ++ List.replicate ((239 - m.length % 128) % 128) 0 ++ beBytes 16 (8 * m.length % 2 ^ 128) := by
    rw [Engine.padded, ← Engine.buffered, hbuf, hblen, finalBlocks_zeros (Nat.mod_lt _ (by decide)),
      Engine.init_absorb_bitLength]
  rw [htail, paddedMessage]
  simp only [← List.append_assoc, List.take_append_drop]

/-- R213: the one-shot hash is the digest of the whole message: the engine compresses the whole blocks of the padded message
as they come, and its final blocks at the end. -/
theorem sha512_eq_messageDigest (m : List Byte) : sha512 m = messageDigest m := by
  obtain ⟨hh, hblen, -, -⟩ := Engine.init_absorb m
  have hwhole : (m.take (128 * (m.length / 128))).length = 128 * (m.length / 128) :=
    List.length_take_of_le (Nat.mul_div_le _ _)
  have htail : (Engine.init.absorb m).padded.length = 128 * finalBlocks (Engine.init.absorb m).blen :=
    Engine.length_padded (by omega)
  have hblocks : (paddedMessage m).length / 128 = m.length / 128 + finalBlocks (Engine.init.absorb m).blen := by
    rw [paddedMessage_eq, List.length_append, hwhole, htail]
    omega
  rw [messageDigest, hblocks, paddedMessage_eq, compress_append _ _ _ _ _ hwhole, compress_take, ← hh]
  rfl

/-! ### RESULT (R141, R143) -/

/-- R141: of memory, RESULT changes the bytes of its range only. -/
theorem State.afterResult_sameMemoryOutside (s : State) : s.SameMemoryOutside s.afterResult s.operands.resultRange := by
  intro a ha
  rw [State.afterResult_mem]
  exact Memory.read_writeBytes_outside _ _ (by rwa [length_serialise])

theorem State.afterResult_sameOutside (s : State) : s.SameOutside s.afterResult :=
  ⟨s.afterResult_args, s.afterResult_platform, s.afterResult_events, s.afterResult_turns, s.afterResult_observed⟩

/-- R141: the 64 bytes at dst are the digest of the finalized engine. -/
theorem State.afterResult_digest {s : State} (hm : s.mem.wf = true) :
    s.afterResult.mem.readBytes s.operands.arg0.toNat 64 = serialise s.engine.forResult.h := by
  have hread := Memory.readBytes_writeBytes hm s.operands.resultRange.base (serialise s.engine.forResult.h)
  rw [length_serialise] at hread
  rw [State.afterResult_mem]
  exact hread

/-! ### Sequences of commands (R90, R133) -/

/-- R90: the state in which command `i` has been accepted with the operands `op`. -/
def State.issue (s : State) (i : Instr) (op : Args) : State :=
  { s with running := some { word := encode i, ops := op } }

theorem runCommand_eq (i : Instr) (op : Args) (s : State) : runCommand i op s = exec i (s.issue i op) := rfl

/-- INPUT, issued on a reachable chunk with FIN = 0, absorbs the chunk's bytes and leaves memory. -/
theorem runCommand_input {s : State} {src len : Word} (hf : s.engine.fin = false)
    (hrep : (rangeOf src len).representable s.platform = true) (hreach : s.reaches (rangeOf src len) = true) :
    ∃ t, runCommand .input (twoOperands src len) s = .next t
      ∧ t.engine = s.engine.absorb (s.mem.readRange (rangeOf src len)) ∧ t.mem = s.mem ∧ t.platform = s.platform :=
  ⟨_, (runCommand_eq _ _ s).trans (execInput_of_runs ⟨hrep, hf, hreach⟩), State.afterInput_engine _,
    State.afterInput_mem _, State.afterInput_platform _⟩

/-- RESULT, issued on a reachable output with COR = 0, completes; the 64 bytes at dst are then the digest. -/
theorem runCommand_result {s : State} {dst : Word} (hm : s.mem.wf = true) (hc : s.engine.cor = false)
    (hrep : (outRange dst).representable s.platform = true) (hreach : s.reaches (outRange dst) = true) :
    ∃ t, runCommand .result (twoOperands dst 0) s = .next t ∧ t.engine = s.engine.forResult
      ∧ t.mem.readBytes dst.toNat 64 = serialise s.engine.forResult.h ∧ t.err = 0x00 ∧ t.running = none :=
  ⟨_, (runCommand_eq _ _ s).trans (execResult_of_runs ⟨hrep, hc, hreach⟩), State.afterResult_engine _,
    State.afterResult_digest hm, rfl, rfl⟩

/-- INPUTs of reachable chunks, issued one after the other with FIN = 0, all complete: the engine absorbs the message that
the chunks hold, and memory stays. -/
theorem runCommands_inputCommands {s : State} {chunks : List (Word × Word)} (rest : List (Instr × Args))
    (hf : s.engine.fin = false) (h : s.chunksReachable chunks = true) :
    ∃ t, runCommands (inputCommands chunks ++ rest) s = runCommands rest t
      ∧ t.engine = s.engine.absorb (s.mem.message chunks) ∧ t.mem = s.mem ∧ t.platform = s.platform := by
  induction chunks generalizing s with
  | nil => exact ⟨s, rfl, rfl, rfl, rfl⟩
  | cons c chunks ih =>
    rw [State.chunksReachable, List.all_cons, Bool.and_eq_true, Bool.and_eq_true] at h
    obtain ⟨⟨hrep, hreach⟩, hrest⟩ := h
    obtain ⟨s', hrun, hengine, hmem, hplatform⟩ := runCommand_input hf hrep hreach
    obtain ⟨t, ht, htengine, htmem, htplatform⟩ := ih (s := s') (by rw [hengine, Engine.absorb_fin, hf])
      (by simpa only [State.chunksReachable, State.reaches, hplatform] using hrest)
    refine ⟨t, (runCommands_cons hrun).trans ht, ?_, htmem.trans hmem, htplatform.trans hplatform⟩
    rw [htengine, hengine, hmem, ← Engine.absorb_append]
    rfl

/-- R133: RESET, INPUTs of reachable chunks and RESULT all complete, and the 64 bytes at dst are the digest of the message
that the chunks hold; STATUS then reads FINALIZED alone. -/
theorem runCommands_hash {s : State} {chunks : List (Word × Word)} {dst : Word} (hm : s.mem.wf = true)
    (hchunks : s.chunksReachable chunks = true) (hrep : (outRange dst).representable s.platform = true)
    (hreach : s.reaches (outRange dst) = true) :
    ∃ t, runCommands ((Instr.reset, twoOperands 0 0) :: inputCommands chunks ++ [(Instr.result, twoOperands dst 0)]) s
        = .next t
      ∧ t.mem.readBytes dst.toNat 64 = messageDigest (s.mem.message chunks) ∧ t.status = 0x2 := by
  let s₀ := State.finish { s with engine := Engine.init } .ok
  have hreset : runCommand .reset (twoOperands 0 0) s = .next s₀ := rfl
  obtain ⟨s₁, hinputs, hengine, hmem, hplatform⟩ := runCommands_inputCommands (s := s₀)
    [(Instr.result, twoOperands dst 0)] rfl hchunks
  have hfin : s₁.engine.fin = false := by rw [hengine, Engine.absorb_fin]; rfl
  have hcor : s₁.engine.cor = false := by rw [hengine, Engine.absorb_cor]; rfl
  obtain ⟨t, hresult, htengine, hdigest, herr, hidle⟩ := runCommand_result (s := s₁) (dst := dst) (by rwa [hmem]) hcor
    (by rwa [hplatform]) (by rwa [State.reaches, hplatform])
  refine ⟨t, ?_, ?_, ?_⟩
  · exact (runCommands_cons hreset).trans (hinputs.trans (runCommands_cons hresult))
  · rw [hdigest, Engine.forResult, hfin, hengine, ← sha512_eq_messageDigest]
    rfl
  · rw [State.status, State.busy_of_running_none hidle, htengine, Engine.forResult_fin, Engine.forResult_cor, hcor, herr]
    decide

/-! ### COR (R37, R132) -/

/-- R37: no command but RESET clears COR. -/
theorem exec_keeps_cor {i : Instr} {s t : State} (hi : i ≠ .reset) (hc : s.engine.cor = true)
    (h : exec i s = .next t) : t.engine.cor = true := by
  rcases exec_next_engine h with he | ⟨hr, -⟩ | ⟨-, -, he, -⟩ | ⟨-, bs, he⟩ | ⟨-, he, -⟩
  · rwa [he]
  · exact absurd hr hi
  · rw [he]
  · rwa [he, Engine.absorb_cor]
  · rwa [he, Engine.forResult_cor]

/-! ### The obligations -/

/-- Settles O6: RESET's whole effect; it leaves the datapath too. -/
theorem resetCommandRestoresEngine : Obligations.ResetCommandRestoresEngine := by
  unfold Obligations.ResetCommandRestoresEngine
  exact fun s => ⟨s.datapath, execReset_eq s⟩

/-- Settles O14, from the engine changes that a command can make. -/
theorem inputAfterFinalizePoisons : Obligations.InputAfterFinalizePoisons := by
  unfold Obligations.InputAfterFinalizePoisons
  exact ⟨fun s => execInput_of_fin, fun i s t => exec_keeps_cor, fun s => execResult_of_cor⟩

/-- Settles O20: RESULT of a finalized engine leaves the engine, so the next RESULT finds the same digest. -/
theorem repeatedResultWritesSameBytes : Obligations.RepeatedResultWritesSameBytes := by
  unfold Obligations.RepeatedResultWritesSameBytes
  intro s hm hruns hf
  obtain ⟨hdigest, hengine⟩ := afterResult_of_fin hm hf
  have hwf : s.afterResult.mem.wf = true := by
    rw [State.afterResult_mem]
    exact Memory.wf_writeBytes hm _ _
  refine ⟨s.afterResult, execResult_of_runs hruns, hengine, hdigest, s.afterResult_sameMemoryOutside, rfl, rfl,
    s.afterResult_sameOutside, fun dst hrep hreach => ?_⟩
  obtain ⟨u, hu, huengine, hudigest, -, -⟩ := runCommand_result (s := s.afterResult) (dst := dst) hwf
    (by rw [hengine]; exact hruns.2.1) (by rwa [State.afterResult_platform])
    (by rwa [State.reaches, State.afterResult_platform])
  rw [hengine, Engine.forResult_of_fin hf] at huengine hudigest
  exact ⟨u, hu, huengine, hudigest.trans hdigest.symm⟩

/-- Settles O21: byte 8i + k of the digest is byte k of word i, and a word's bytes are its digits in base 256. -/
theorem serialiseIsBigEndian : Obligations.SerialiseIsBigEndian := by
  unfold Obligations.SerialiseIsBigEndian
  refine fun h => ⟨length_serialise h, fun i k => ?_⟩
  have hword : h.toList[i.val]? = some h[i] := by simp
  rw [serialise, getElem?_flatMap_of_length (fun w => length_beBytes 8 w.toNat) hword k.isLt,
    getElem?_beBytes_word _ k.isLt]

/-- Settles O22, by the two cases of the final block count. -/
theorem finalBlockTable : Obligations.FinalBlockTable := by
  unfold Obligations.FinalBlockTable
  refine fun e he => ⟨fun hl => ⟨finalBlocks_of_le hl, _, length_beBytes 16 e.bitLength, ?_⟩,
    fun hl => ⟨finalBlocks_of_ge hl, _, length_beBytes 16 e.bitLength, ?_⟩, Engine.length_buffered he⟩
  · rw [Engine.padded, finalBlocks_of_le hl, show 128 * 1 - e.blen - 17 = 111 - e.blen by omega]
  · rw [Engine.padded, finalBlocks_of_ge hl, show 128 * 2 - e.blen - 17 = 239 - e.blen by omega]

/-- Settles O23: the length field encodes the bit length, which from reset is the message's. -/
theorem lengthFieldIsBitLength : Obligations.LengthFieldIsBitLength := by
  unfold Obligations.LengthFieldIsBitLength
  refine ⟨Engine.beNat_lengthField, Engine.init_absorb_length, fun m hm => ?_⟩
  calc beNat ((Engine.init.absorb m).padded.drop ((Engine.init.absorb m).padded.length - 16))
      = (Engine.init.absorb m).bitLength := Engine.beNat_lengthField _
    _ = 8 * m.length % 2 ^ 128 := Engine.init_absorb_bitLength m
    _ = 8 * m.length := Nat.mod_eq_of_lt (by omega)

/-- Settles O28: either run writes the digest of the message that its chunks hold. -/
theorem chunkingDoesNotChangeDigest : Obligations.ChunkingDoesNotChangeDigest := by
  unfold Obligations.ChunkingDoesNotChangeDigest
  intro s chunks src len dst hm hchunks hwhole hmessage hrep hreach
  obtain ⟨t, ht, htdigest, htstatus⟩ := runCommands_hash hm hchunks hrep hreach
  obtain ⟨u, hu, hudigest, hustatus⟩ := runCommands_hash hm hwhole hrep hreach
  have hsame : s.mem.message [(src, len)] = s.mem.message chunks := by
    rw [hmessage, Memory.message, List.flatMap_singleton]
    rfl
  exact ⟨t, u, ht, hu, by rw [htdigest, hudigest, hsame], htdigest, htstatus, hustatus⟩

end Sys2Proof.Machine
end

section
/-! The compression core (spec/41_compression.md): the word functions and the sigmas bit by bit, the schedule's big-endian words
and its recurrence, the rounds, and the chain of blocks. The obligations of this family stand at the end. -/

namespace Sys2Proof.Machine

/-! ### The word functions, bit by bit (R170 to R177) -/

section Bits
variable (a b c e f g x : Word) {n i : Nat}

/-- R170: ROTR rotates to the right: bits below 64 - n come from the right shift, the others from the left one. -/
theorem getLsbD_rotr (hn : 0 < n) (hn' : n < 64) (hi : i < 64) :
    (rotr n x).getLsbD i = x.getLsbD ((i + n) % 64) := by
  rw [rotr, BitVec.getLsbD_or, BitVec.getLsbD_ushiftRight, BitVec.getLsbD_shiftLeft, Nat.add_comm n i]
  by_cases h : i + n < 64
  · simp [Nat.mod_eq_of_lt h, show i < 64 - n by omega]
  · have hwrap : (i + n) % 64 = i - (64 - n) := by omega
    simp [hwrap, hi, show ¬ i < 64 - n by omega, BitVec.getLsbD_of_ge x (i + n) (by omega)]

/-- R171: SHR shifts zeros in. -/
theorem getLsbD_shr : (shr n x).getLsbD i = (decide (i + n < 64) && x.getLsbD (i + n)) := by
  rw [shr, BitVec.getLsbD_ushiftRight, Nat.add_comm n i]
  by_cases h : i + n < 64
  · simp [h]
  · simp [h, BitVec.getLsbD_of_ge x (i + n) (by omega)]

/-- R176: Ch chooses by the bit of e. -/
theorem getLsbD_ch (hi : i < 64) :
    (ch e f g).getLsbD i = if e.getLsbD i then f.getLsbD i else g.getLsbD i := by
  rw [ch, BitVec.getLsbD_xor, BitVec.getLsbD_and, BitVec.getLsbD_and, BitVec.getLsbD_not]
  cases e.getLsbD i <;> simp [hi]

/-- The exclusive or of the pairwise conjunctions of three bits is their majority. -/
theorem xor_ands_eq_majority : ∀ a b c : Bool,
    (((a && b) ^^ (a && c)) ^^ (b && c)) = decide (2 ≤ a.toNat + b.toNat + c.toNat) := by decide

/-- R177: Maj is the majority. -/
theorem getLsbD_maj : (maj a b c).getLsbD i
    = decide (2 ≤ (a.getLsbD i).toNat + (b.getLsbD i).toNat + (c.getLsbD i).toNat) := by
  rw [← xor_ands_eq_majority, maj, BitVec.getLsbD_xor, BitVec.getLsbD_xor, BitVec.getLsbD_and, BitVec.getLsbD_and,
    BitVec.getLsbD_and]

end Bits

/-! ### Big-endian words (R7, R181) -/

/-- Reading on from the number `a` puts it above the bytes read. -/
theorem foldl_bytes_div (bs : List Byte) (a : Nat) :
    bs.foldl (fun n b => n * 256 + b.toNat) a / 256 ^ bs.length = a := by
  induction bs generalizing a with
  | nil => simp
  | cons b bs ih =>
    have hb : b.toNat < 256 := b.isLt
    rw [List.foldl_cons, List.length_cons, Nat.pow_succ, ← Nat.div_div_eq_div_mul, ih]
    omega

/-- Whatever number the reading starts from, the last bytes of the result are the bytes read. -/
theorem beBytes_foldl (bs : List Byte) (a : Nat) :
    beBytes bs.length (bs.foldl (fun n b => n * 256 + b.toNat) a) = bs := by
  induction bs generalizing a with
  | nil => rfl
  | cons b bs ih =>
    rw [List.foldl_cons, List.length_cons, beBytes, foldl_bytes_div, ih]
    congr 1
    exact BitVec.eq_of_toNat_eq (by simpa using b.isLt)

/-- R7: n bytes encode a number below 256^n. -/
theorem beNat_lt (bs : List Byte) : beNat bs < 256 ^ bs.length :=
  (Nat.div_eq_zero_iff_lt (by positivity)).mp (foldl_bytes_div bs 0)

/-- R7: BE_8 of the word of 8 bytes is those bytes. -/
theorem beBytes_beWord {bs : List Byte} (h : bs.length = 8) : beBytes 8 (beWord bs).toNat = bs := by
  have hlt : beNat bs < 2 ^ 64 := by simpa [h] using beNat_lt bs
  have hdigits : beBytes bs.length (beNat bs) = bs := beBytes_foldl bs 0
  rwa [beWord_eq_ofNat_beNat, BitVec.toNat_ofNat, Nat.mod_eq_of_lt hlt, ← h]

/-- R181: word i is the word of the i-th 8-byte group. -/
theorem getElem?_unpackWords {n i : Nat} (bs : List Byte) (h : i < n) :
    (unpackWords n bs)[i]? = some (beWord ((bs.drop (8 * i)).take 8)) := by
  induction n generalizing i bs with
  | zero => omega
  | succ n ih =>
    cases i with
    | zero => rfl
    | succ i => rw [unpackWords, List.getElem?_cons_succ, ih _ (by omega), List.drop_drop, Nat.mul_succ, Nat.add_comm]

/-! ### The schedule (R182) -/

/-- Extending a schedule keeps the words it has, at its front. -/
theorem take_extendSchedule (n : Nat) (ws : List Word) : (extendSchedule n ws).take ws.length = ws :=
  List.ext_getElem? fun i => by
    by_cases h : i < ws.length
    · rw [List.getElem?_take_of_lt h, getElem?_extendSchedule h]
    · simp [h]

/-- R182: each word that extending a schedule adds is the next word after those before it. -/
theorem getElem?_extendSchedule_added {n i : Nat} {ws : List Word} (hi : ws.length ≤ i) (hi' : i < ws.length + n) :
    (extendSchedule n ws)[i]? = some (nextScheduleWord ((extendSchedule n ws).take i)) := by
  induction n generalizing ws with
  | zero => omega
  | succ n ih =>
    rcases Nat.eq_or_lt_of_le hi with rfl | hlt
    · rw [take_extendSchedule, extendSchedule,
        getElem?_extendSchedule (by simp), List.getElem?_concat_length]
    · exact ih (by simpa using hlt) (by simp; omega)

/-- R182: the next word after the first i of a sequence, by the sequence's own words. -/
theorem nextScheduleWord_take {ws : List Word} {i : Nat} (h : 16 ≤ i) (hi : i ≤ ws.length) :
    nextScheduleWord (ws.take i) = smallSigma1 (ws.getD (i - 2) 0) + ws.getD (i - 7) 0
      + smallSigma0 (ws.getD (i - 15) 0) + ws.getD (i - 16) 0 := by
  have hget : ∀ j, 0 < j → (ws.take i).getD (i - j) 0 = ws.getD (i - j) 0 := fun j hj => by
    rw [List.getD_eq_getElem?_getD, List.getD_eq_getElem?_getD, List.getElem?_take_of_lt (by omega)]
  rw [nextScheduleWord, List.length_take_of_le hi, hget 2 (by omega), hget 7 (by omega), hget 15 (by omega),
    hget 16 (by omega)]

/-- R181: the first 16 words of the schedule are the block's. -/
theorem getElem?_schedule_block (block : List Byte) {i : Nat} (hi : i < 16) :
    (schedule block)[i]? = some (beWord ((block.drop (8 * i)).take 8)) := by
  rw [schedule, getElem?_extendSchedule (by simpa using hi), getElem?_unpackWords _ hi]

/-- R181: byte 8i + k of the block is byte k of word i. -/
theorem getElem?_block_of_schedule {block : List Byte} (hb : block.length = 128) {i k : Nat} (hi : i < 16) (hk : k < 8) :
    block[8 * i + k]? = some (((schedule block).getD i 0).extractLsb' (56 - 8 * k) 8) := by
  rw [List.getD_eq_getElem?_getD, getElem?_schedule_block block hi, Option.getD_some, ← getElem?_beBytes_word _ hk,
    beBytes_beWord (by simp; omega), List.getElem?_take_of_lt hk, List.getElem?_drop]

/-- R182: the other words follow the recurrence. -/
theorem schedule_recurrence (block : List Byte) {i : Nat} (hi : 16 ≤ i) (hi' : i < 80) :
    (schedule block).getD i 0
      = smallSigma1 ((schedule block).getD (i - 2) 0) + (schedule block).getD (i - 7) 0
        + smallSigma0 ((schedule block).getD (i - 15) 0) + (schedule block).getD (i - 16) 0 := by
  rw [← nextScheduleWord_take hi (by simp; omega), List.getD_eq_getElem?_getD, schedule,
    getElem?_extendSchedule_added (by simpa using hi) (by simpa using hi'), Option.getD_some]

/-! ### The rounds and the feed-forward (R183 to R185) -/

/-- R183: the working variables start from H. -/
theorem initialVars_toList (h : Vector Word 8) : (initialVars h).toList = h.toList := by
  refine List.ext_getElem (by simp [WorkVars.toList]) fun i hi _ => ?_
  rw [Vector.getElem_toList]
  have hi8 : i < 8 := hi
  interval_cases i <;> rfl

/-- R185: the feed-forward adds each working variable to its word of H. -/
@[simp] theorem feedForward_toList (h : Vector Word 8) (v : WorkVars) :
    (feedForward h v).toList = List.zipWith (· + ·) h.toList v.toList := rfl

/-- R184: after t + 1 rounds the working variables are round t's of those after t rounds. -/
theorem compressionRounds_take_succ {ks ws : List Word} {t : Nat} (v : WorkVars) (hk : t < ks.length) (hw : t < ws.length) :
    compressionRounds (ks.take (t + 1)) (ws.take (t + 1)) v
      = compressionRound (ks.getD t 0) (ws.getD t 0) (compressionRounds (ks.take t) (ws.take t) v) := by
  induction t generalizing ks ws v with
  | zero =>
    obtain ⟨k, ks, rfl⟩ := List.exists_cons_of_length_pos hk
    obtain ⟨w, ws, rfl⟩ := List.exists_cons_of_length_pos hw
    rfl
  | succ t ih =>
    obtain ⟨k, ks, rfl⟩ := List.exists_cons_of_length_pos (Nat.zero_lt_of_lt hk)
    obtain ⟨w, ws, rfl⟩ := List.exists_cons_of_length_pos (Nat.zero_lt_of_lt hw)
    exact ih _ (Nat.lt_of_succ_lt_succ hk) (Nat.lt_of_succ_lt_succ hw)

/-- The working variables before round t of compressing a block: those that the first t rounds make. -/
def varsBeforeRound (h : Vector Word 8) (block : List Byte) (t : Nat) : WorkVars :=
  compressionRounds (roundConstants.take t) ((schedule block).take t) (initialVars h)

theorem varsBeforeRound_zero (h : Vector Word 8) (block : List Byte) : varsBeforeRound h block 0 = initialVars h := rfl

theorem varsBeforeRound_succ (h : Vector Word 8) (block : List Byte) {t : Nat} (ht : t < 80) :
    varsBeforeRound h block (t + 1)
      = compressionRound (roundConstants.getD t 0) ((schedule block).getD t 0) (varsBeforeRound h block t) :=
  compressionRounds_take_succ _ (by simpa using ht) (by simpa using ht)

/-- R185, R186: a block's digest is H fed forward with the working variables after round 79. -/
theorem compressBlock_eq_feedForward (h : Vector Word 8) (block : List Byte) :
    compressBlock h block = feedForward h (varsBeforeRound h block 80) := by
  rw [compressBlock, varsBeforeRound, List.take_of_length_le (by simp), List.take_of_length_le (by simp)]

/-! ### The chain of blocks (R186) -/

/-- R186: one block more is one compression more, of the block after those before. -/
theorem compress_succ (h : Vector Word 8) (data : List Byte) (j : Nat) :
    compress h data (j + 1) = compressBlock (compress h data j) ((data.drop (128 * j)).take 128) := by
  induction j generalizing h data with
  | zero => rfl
  | succ j ih => rw [compress, ih, compress, List.drop_drop, Nat.mul_succ, Nat.add_comm]

/-! ### The obligations -/

/-- Settles O30: each word function is a few bitwise operations, read at bit i. -/
theorem wordFunctionsBitByBit : Obligations.WordFunctionsBitByBit := by
  unfold Obligations.WordFunctionsBitByBit
  exact ⟨fun n i x => getLsbD_rotr x, fun n i x _ => getLsbD_shr x, fun e f g i => getLsbD_ch e f g,
    fun a b c i _ => getLsbD_maj a b c⟩

/-- Settles O31: each sigma function is the exclusive or of rotations and shifts. -/
theorem sigmaFunctionsBitByBit : Obligations.SigmaFunctionsBitByBit := by
  unfold Obligations.SigmaFunctionsBitByBit
  intro x i hi
  refine ⟨?_, ?_, ?_, ?_⟩
  · simp (disch := omega) only [smallSigma0, BitVec.getLsbD_xor, getLsbD_rotr, getLsbD_shr]
  · simp (disch := omega) only [smallSigma1, BitVec.getLsbD_xor, getLsbD_rotr, getLsbD_shr]
  · simp (disch := omega) only [bigSigma0, BitVec.getLsbD_xor, getLsbD_rotr]
  · simp (disch := omega) only [bigSigma1, BitVec.getLsbD_xor, getLsbD_rotr]

/-- Settles O33: the first 16 words are the block's bytes, and each word added is the next one after those before it. -/
theorem scheduleFollowsRecurrence : Obligations.ScheduleFollowsRecurrence := by
  unfold Obligations.ScheduleFollowsRecurrence
  refine fun block hb => ⟨length_schedule block, fun i k hi hk => ?_, fun i => schedule_recurrence block⟩
  rw [List.getD_eq_getElem?_getD (l := block), getElem?_block_of_schedule hb hi hk, Option.getD_some]

/-- Settles O34: the working variables before each round, and the digest after each block. -/
theorem compressBlockIsEightyRounds : Obligations.CompressBlockIsEightyRounds := by
  unfold Obligations.CompressBlockIsEightyRounds
  refine ⟨fun h block => ⟨varsBeforeRound h block, initialVars_toList h, fun t ht => ?_, ?_, fun x => rfl⟩,
    fun h data n _ => ⟨compress h data, rfl, fun j _ => compress_succ h data j, rfl⟩⟩
  · rw [varsBeforeRound_succ h block ht]
    exact ⟨rfl, rfl, rfl, rfl, rfl, rfl, rfl, rfl⟩
  · rw [compressBlock_eq_feedForward, feedForward_toList]

end Sys2Proof.Machine
end

section
/-! The HMAC wrapper (spec/42_hmac.md): the key block, the code that HMAC writes, and that it leaves the streaming engine alone.
The obligations of this family stand at the end. -/

namespace Sys2Proof.Machine

/-! ### The key block (R211) -/

theorem keyBlock_of_le {key : List Byte} (h : key.length ≤ 128) :
    keyBlock key = key ++ List.replicate (128 - key.length) 0x00 := by
  rw [keyBlock, if_neg (Nat.not_lt.mpr h)]

theorem keyBlock_of_gt {key : List Byte} (h : 128 < key.length) :
    keyBlock key = sha512 key ++ List.replicate 64 0x00 := by
  rw [keyBlock, if_pos h, length_sha512]

@[simp] theorem length_keyBlock (key : List Byte) : (keyBlock key).length = 128 := by
  rcases Nat.lt_or_ge 128 key.length with h | h
  · rw [keyBlock_of_gt h, List.length_append, length_sha512, List.length_replicate]
  · rw [keyBlock_of_le h, List.length_append, List.length_replicate, Nat.add_sub_cancel' h]

/-! ### The code (R210, R212, R213) -/

/-- R210: of memory, HMAC changes the bytes of its output range only. -/
theorem State.afterHmac_sameMemoryOutside (s : State) : s.SameMemoryOutside s.afterHmac s.operands.hmacRange := by
  intro a ha
  rw [State.afterHmac_mem]
  exact Memory.read_writeBytes_outside _ _ (by rwa [length_hmacSha512])

theorem State.afterHmac_sameOutside (s : State) : s.SameOutside s.afterHmac :=
  ⟨s.afterHmac_args, s.afterHmac_platform, s.afterHmac_events, s.afterHmac_turns, s.afterHmac_observed⟩

/-- R73, R210: the 64 bytes at out are the code of the key and the message as they were before the command. -/
theorem State.afterHmac_code {s : State} (hm : s.mem.wf = true) :
    s.afterHmac.mem.readBytes s.operands.arg4.toNat 64
      = hmacSha512 (s.mem.readRange s.operands.keyRange) (s.mem.readRange s.operands.messageRange) := by
  have hread := Memory.readBytes_writeBytes hm s.operands.hmacRange.base
    (hmacSha512 (s.mem.readRange s.operands.keyRange) (s.mem.readRange s.operands.messageRange))
  rw [length_hmacSha512] at hread
  rw [State.afterHmac_mem]
  exact hread

/-! ### The streaming engine (R214) -/

/-- R64, R68: whether an access goes through, and how it stops, does not depend on what the command would do. -/
theorem State.accessing_cases (s : State) (ranges : List Range) :
    (∀ k, s.accessing ranges k = k)
    ∨ (∀ k, s.accessing ranges k = .fault .memoryNotAdmitted)
    ∨ (∀ k, s.accessing ranges k = .refused .sideEffectMemory) := by
  unfold State.accessing
  split
  · split
    · exact .inl fun k => rfl
    · exact .inr (.inr fun k => rfl)
  · exact .inr (.inl fun k => rfl)

/-- R214: HMAC's effect keeps the streaming engine and does not depend on it. -/
theorem State.afterHmac_withEngine (s : State) (e : Engine) :
    ({ s with engine := e } : State).afterHmac = { s.afterHmac with engine := e } := by
  simp only [State.afterHmac, State.leaveDatapath, State.finish, Nat.one_ne_zero, if_false]
  rfl

/-- R214: HMAC with another engine in place of the streaming engine accesses the same ranges for the same effect, but for that
engine, which it keeps. -/
theorem execHmac_accesses_withEngine {s : State} (e : Engine)
    (hm : s.operands.messageRange.representable s.platform = true)
    (hk : s.operands.keyRange.representable s.platform = true)
    (ho : s.operands.hmacRange.representable s.platform = true) :
    ∃ ranges t, execHmac s = s.accessing ranges (.next t)
      ∧ execHmac { s with engine := e } = s.accessing ranges (.next { t with engine := e }) :=
  ⟨_, s.afterHmac, execHmac_accesses hm hk ho, by
    rw [← State.afterHmac_withEngine]
    exact execHmac_accesses (s := { s with engine := e }) hm hk ho⟩

theorem exec_hmac (s : State) : exec .hmac s = execHmac s := rfl

/-! ### The obligations -/

/-- Settles O24: HMAC that runs leaves the code in memory, and its frame. -/
theorem hmacWritesCode : Obligations.HmacWritesCode := by
  unfold Obligations.HmacWritesCode
  exact fun s hm hruns => ⟨s.afterHmac, execHmac_of_runs hruns, State.afterHmac_code hm, s.afterHmac_sameMemoryOutside,
    s.afterHmac_engine, rfl, rfl, s.afterHmac_sameOutside⟩

/-- Settles O26: the range checks and the access do not depend on the engine, and the effect keeps it. -/
theorem hmacIgnoresStreamingEngine : Obligations.HmacIgnoresStreamingEngine := by
  unfold Obligations.HmacIgnoresStreamingEngine
  intro s e
  rw [exec_hmac, exec_hmac]
  by_cases hw : s.operands.messageRange.representable s.platform = false
      ∨ s.operands.keyRange.representable s.platform = false
      ∨ s.operands.hmacRange.representable s.platform = false
  · rw [execHmac_of_wraps hw]
    exact execHmac_of_wraps hw
  · simp only [not_or, Bool.not_eq_false] at hw
    obtain ⟨hm, hk, ho⟩ := hw
    obtain ⟨ranges, t, hthis, hother⟩ := execHmac_accesses_withEngine e hm hk ho
    rw [hthis, hother]
    rcases s.accessing_cases ranges with h | h | h <;> rw [h (.next t), h]

/-- Settles O25: at 128 bytes the two clauses for short keys agree, with no padding. -/
theorem keyBlockPadsOrHashes : Obligations.KeyBlockPadsOrHashes := by
  unfold Obligations.KeyBlockPadsOrHashes
  refine fun key => ⟨keyBlock_of_le, fun h => ?_, keyBlock_of_gt, length_keyBlock key⟩
  rw [keyBlock_of_le h.le, h, Nat.sub_self, List.replicate_zero, List.append_nil]

end Sys2Proof.Machine
end

section
/-! Errors (spec/60_exceptions.md): a command that reports an error changes nothing else, and which code each command reports. The
obligations of this family stand at the end. -/

namespace Sys2Proof.Machine

/-! ### What CORE's turn does with the accepted word (R90, R94) -/

/-- R90, R94: CORE's turn on an accepted word: it reports ILLEGAL_COMMAND and changes nothing else, or it runs the command that
the word encodes. -/
theorem step_next_of_running {s t : State} {r : Running} (h : step s = .next t) (ha : s.nextAgent = .core)
    (hr : s.running = some r) :
    t = s.takeTurn.finish .illegalCommand
    ∨ ∃ i, decode r.word = .instr i ∧ exec i s.takeTurn = .next t := by
  obtain ⟨hs, -⟩ := step_next h
  rw [step_of_core hs ha] at h
  cases hd : decode r.word with
  | illegal why =>
    rw [coreStep_of_illegal (s := s.takeTurn) hr hd] at h
    exact .inl (Host.Outcome.next.inj h).symm
  | instr i =>
    rw [coreStep_of_instr (s := s.takeTurn) hr hd] at h
    exact .inr ⟨i, rfl, h⟩

/-! ### Precision (R241, R242) -/

/-- R23: with no command running, STATUS shows BUSY = 0, FIN, COR and ERR. -/
theorem State.status_of_running_none {s : State} (h : s.running = none) :
    s.status = statusWord false s.engine.fin s.engine.cor s.err := by
  rw [State.status, State.busy_of_running_none h]

/-- R241: a command that answers a next state with an error has changed only ERR, BUSY and, for INPUT after finalization, COR:
every outcome with a further effect reports OK. -/
theorem exec_next_of_err {i : Instr} {s t : State} (h : exec i s = .next t) (he : t.err ≠ 0x00) :
    t = { s with err := t.err, running := none }
    ∨ (i = .input ∧ t.err = 0x03
      ∧ t = { s with engine := { s.engine with cor := true }, err := 0x03, running := none }) := by
  rcases exec_next h with ⟨e, -, rfl⟩ | ⟨hi, -, rfl⟩ | ⟨-, rfl⟩ | ⟨-, -, rfl⟩ | ⟨-, -, rfl⟩ | ⟨-, -, rfl⟩
  · exact .inl rfl
  · exact .inr ⟨hi, rfl, rfl⟩
  · exact absurd rfl he
  · exact absurd s.afterInput_err he
  · exact absurd s.afterResult_err he
  · exact absurd s.afterHmac_err he

/-! ### The code of each command (R240, R243) -/

theorem execInput_next_err {s t : State} (h : execInput s = .next t) :
    t.err = if s.operands.inputRange.representable s.platform = false then 0x02
      else if s.engine.fin = true then 0x03 else 0x00 := by
  rcases execInput_next h with ⟨hr, rfl⟩ | ⟨hr, hf, rfl⟩ | ⟨⟨hr, hf, -⟩, rfl⟩
  · rw [if_pos hr]; rfl
  · rw [if_neg (ne_false_of_eq_true hr), if_pos hf]; rfl
  · rw [if_neg (ne_false_of_eq_true hr), if_neg (ne_true_of_eq_false hf)]; rfl

theorem execResult_next_err {s t : State} (h : execResult s = .next t) :
    t.err = if s.operands.resultRange.representable s.platform = false then 0x02
      else if s.engine.cor = true then 0x04 else 0x00 := by
  rcases execResult_next h with ⟨hr, rfl⟩ | ⟨hr, hc, rfl⟩ | ⟨⟨hr, hc, -⟩, rfl⟩
  · rw [if_pos hr]; rfl
  · rw [if_neg (ne_false_of_eq_true hr), if_pos hc]; rfl
  · rw [if_neg (ne_false_of_eq_true hr), if_neg (ne_true_of_eq_false hc)]; rfl

theorem execHmac_next_err {s t : State} (h : execHmac s = .next t) :
    t.err = if s.operands.messageRange.representable s.platform = false
        ∨ s.operands.keyRange.representable s.platform = false
        ∨ s.operands.hmacRange.representable s.platform = false then 0x02
      else 0x00 := by
  rcases execHmac_next h with ⟨hw, rfl⟩ | ⟨⟨hm, hk, ho, -⟩, rfl⟩
  · rw [if_pos hw]; rfl
  · rw [if_neg (by simp [hm, hk, ho])]; rfl

/-! ### The obligations -/

/-- Settles O43: an illegal word changes ERR and BUSY, and a command's meaning is precise by itself. -/
theorem errorsArePrecise : Obligations.ErrorsArePrecise := by
  unfold Obligations.ErrorsArePrecise
  refine ⟨fun s t r ha hr h he => ?_, fun i s t h he =>
    ⟨exec_next_of_err h he, State.status_of_running_none (exec_next_running h)⟩⟩
  rcases step_next_of_running h ha hr with rfl | ⟨i, hd, hx⟩
  · exact ⟨.inl rfl, rfl⟩
  · refine ⟨?_, State.status_of_running_none (exec_next_running hx)⟩
    rcases exec_next_of_err hx he with ht | ⟨rfl, herr, ht⟩
    · exact .inl ht
    · exact .inr ⟨hd, herr, ht⟩

/-- Settles O44: each command's code by its range check, with the check written out, and the illegal words by the opcode
map. -/
theorem errNamesTheFirstCause : Obligations.ErrNamesTheFirstCause := by
  unfold Obligations.ErrNamesTheFirstCause
  refine ⟨fun s t h => ?_,
    fun s t h => (execInput_next_err h).trans (if_congr rangeOf_not_representable_iff rfl rfl),
    fun s t h => (execResult_next_err h).trans (if_congr outRange_not_representable_iff rfl rfl),
    fun s t h => (execHmac_next_err h).trans (if_congr (or_congr rangeOf_not_representable_iff
      (or_congr rangeOf_not_representable_iff outRange_not_representable_iff)) rfl rfl),
    fun s t r ha hr h1 h2 h3 h4 h => ?_⟩
  · obtain rfl := Host.Outcome.next.inj ((execReset_eq s).symm.trans h)
    rfl
  · obtain ⟨-, hillegal⟩ := opcodeMapIsExact
    obtain ⟨hs, -⟩ := step_next h
    obtain rfl := Host.Outcome.next.inj ((hillegal s r hs ha hr h1 h2 h3 h4).symm.trans h)
    rfl

end Sys2Proof.Machine
end

section
/-! Power-on reset and HOST's accesses to the window while BUSY = 1 (spec/70_reset_and_hazards.md): the block's state after reset,
what makes the block busy, and the register writes that fault. The obligations of this family stand at the end. -/

namespace Sys2Proof.Machine

/-! ### Power-on reset (R280) -/

/-- R24: with no command running, STATUS reads as its fields. -/
theorem State.readReg_status_of_idle {s : State} (h : s.running = none) : s.readReg .status = s.status := by
  rw [State.readReg, State.busy_of_running_none h, if_neg Bool.false_ne_true]

/-- R32 to R37: the fields of the engine after a reset. -/
theorem Engine.init_fields :
    Engine.init.h.toList =
        [0x6a09e667f3bcc908, 0xbb67ae8584caa73b, 0x3c6ef372fe94f82b, 0xa54ff53a5f1d36f1,
         0x510e527fade682d1, 0x9b05688c2b3e6c1f, 0x1f83d9abfb41bd6b, 0x5be0cd19137e2179]
      ∧ Engine.init.buf.toList = List.replicate 256 0x00 ∧ Engine.init.blen = 0 ∧ Engine.init.total = 0
      ∧ Engine.init.fin = false ∧ Engine.init.cor = false :=
  ⟨rfl, Vector.toList_replicate, rfl, rfl, rfl, rfl⟩

/-- R280: a state with no command running and with the ARG registers, ERR and the engine of the reset state holds the whole
table. -/
theorem State.asPoweredOn_of_reset_fields {s : State} (hrun : s.running = none) (hargs : s.args = State.reset.args)
    (herr : s.err = 0) (hengine : s.engine = Engine.init) : s.AsPoweredOn := by
  have hstatus : s.readReg .status = 0x0 := by
    rw [State.readReg_status_of_idle hrun, State.status_of_running_none hrun, hengine, herr]
    decide
  refine ⟨rfl, congrArg Args.arg0 hargs, congrArg Args.arg1 hargs, congrArg Args.arg2 hargs,
    congrArg Args.arg3 hargs, congrArg Args.arg4 hargs, hstatus, infoWord_eq, hrun, herr, ?_⟩
  rw [hengine]
  exact Engine.init_fields

/-- R280: the reset input answers a next state, which is `poweredOn` but for host memory. -/
theorem step_of_powerOnReset {s : State} {rest : List ExternalEvent} (h : s.actsNow .powerOnReset rest) :
    step s = .next { (s.afterAction rest).poweredOn with
      mem := cutShort s.platform s.draws s.mem (s.afterAction rest).landing } :=
  step_of_action h

/-! ### What makes the block busy (R90, R281) -/

/-- R22, R90: a register write accepts a command if it writes CMD, and leaves the running command otherwise. -/
theorem State.writeReg_running (s : State) (r : Reg) (v : Word) :
    (r = .cmd ∧ (s.writeReg r v).running = some { word := v, ops := s.args })
    ∨ (s.writeReg r v).running = s.running := by
  cases r with
  | cmd => exact .inl ⟨rfl, rfl⟩
  | arg0 | arg1 | arg2 | arg3 | arg4 | status | info => exact .inr rfl

/-- Everything an action of the outside world can do to the running command: nothing, ending it, or accepting one, which is
HOST's write of CMD. -/
theorem externalEvent_next_running {s t : State} {e : ExternalEvent} (h : externalEvent s e = .next t) :
    t.running = s.running ∨ t.running = none
    ∨ ∃ w, e = .regWrite (s.platform.regBase + Reg.cmd.offset) 8 w
        ∧ t.running = some { word := w, ops := s.args } := by
  rcases externalEvent_next h with ⟨addr, width, w, r, rfl, hr, -, rfl⟩ | ⟨-, -, -, -, -, rfl⟩ | ⟨-, -, rfl⟩
    | ⟨-, -, rfl⟩ | ⟨-, -, -, -, -, rfl⟩ | ⟨-, -, -, rfl⟩ | ⟨-, -, -, rfl⟩ | ⟨-, rfl⟩
  · rcases s.writeReg_running r w with ⟨rfl, hrun⟩ | hrun
    · obtain ⟨rfl, rfl⟩ := regAccessed_eq_some hr
      exact .inr (.inr ⟨w, rfl, hrun⟩)
    · exact .inl hrun
  · exact .inl rfl
  · exact .inl rfl
  · exact .inl rfl
  · exact .inl rfl
  · exact .inl rfl
  · exact .inl rfl
  · exact .inr (.inl rfl)

/-- Everything a step can do to the running command: nothing, ending it, or accepting one, which is HOST's write of CMD. -/
theorem step_next_running {s t : State} (h : step s = .next t) :
    t.running = s.running ∨ t.running = none
    ∨ ∃ rest w, s.actsNow (.regWrite (s.platform.regBase + Reg.cmd.offset) 8 w) rest
        ∧ t.running = some { word := w, ops := s.args } := by
  rcases step_cases h with ⟨-, rfl⟩ | ⟨-, rfl⟩ | ⟨i, -, hx⟩ | ⟨-, rfl⟩ | ⟨e, rest, hact, hx⟩
  · exact .inl rfl
  · exact .inr (.inl rfl)
  · exact .inr (.inl (exec_next_running hx))
  · exact .inl rfl
  · rcases externalEvent_next_running hx with hrun | hrun | ⟨w, rfl, hrun⟩
    · exact .inl hrun
    · exact .inr (.inl hrun)
    · exact .inr (.inr ⟨rest, w, hact, hrun⟩)

/-- R281: a step that sets BUSY is HOST's write of CMD, which latches the ARG registers. -/
theorem step_sets_busy {s t : State} (h : step s = .next t) (hs : s.busy = false) (ht : t.busy = true) :
    ∃ rest w, s.actsNow (.regWrite (s.platform.regBase + Reg.cmd.offset) 8 w) rest
      ∧ t.running = some { word := w, ops := s.args } := by
  rcases step_next_running h with hrun | hrun | haccepts
  · rw [State.busy, hrun] at ht
    exact absurd ht (ne_true_of_eq_false hs)
  · exact absurd ht (ne_true_of_eq_false (State.busy_of_running_none hrun))
  · exact haccepts

/-! ### Register writes while BUSY = 1 (R300) -/

/-- R20: every aligned offset of the window is a register's. -/
theorem exists_reg_of_offset {off : Nat} (haligned : off % 8 = 0) (hoff : off < 0x40) : ∃ r : Reg, r.offset = off := by
  have hregs : ∀ k < 8, ∃ r ∈ [Reg.cmd, .arg0, .arg1, .arg2, .arg3, .arg4, .status, .info], r.offset = 8 * k := by
    decide
  obtain ⟨r, -, hr⟩ := hregs (off / 8) (by omega)
  exact ⟨r, by omega⟩

/-- R300: HOST's write of a register while BUSY = 1. -/
theorem step_of_busy_regWrite {s : State} {r : Reg} {v : Word} {rest : List ExternalEvent}
    (h : s.actsNow (.regWrite (s.platform.regBase + r.offset) 8 v) rest) (hb : s.busy = true) :
    step s = .fault .busyRegisterWrite := by
  simp [step_of_action h, externalEvent, hostRegWrite, regAccessed_regAddr, hb]

/-! ### The obligations -/

/-- Settles O7: both resets by their whole effect, and the start of a command by what a step can do to the running command. -/
theorem resetDiffersFromPowerOnInArgs : Obligations.ResetDiffersFromPowerOnInArgs := by
  unfold Obligations.ResetDiffersFromPowerOnInArgs
  exact ⟨fun s u rest h => ⟨_, _, execReset_eq s, step_of_powerOnReset h, rfl, rfl, rfl, rfl, rfl, rfl⟩,
    fun s t => step_sets_busy⟩

/-- Settles O40: each aligned offset of the window is a register's; STATUS reads BUSY = 1 by the last part of O12, and INFO
reads its constant by O36. -/
theorem busyRegisterWritesFault : Obligations.BusyRegisterWritesFault := by
  unfold Obligations.BusyRegisterWritesFault
  obtain ⟨-, -, -, hstatus⟩ := everyCommandCompletes
  obtain ⟨hinfo, -⟩ := infoIsConstant
  refine ⟨fun s off v rest h haligned hoff hb => ?_, hstatus, fun s rest h _ => ⟨_, hinfo s rest h, rfl⟩⟩
  obtain ⟨r, rfl⟩ := exists_reg_of_offset haligned hoff
  exact step_of_busy_regWrite h hb

/-- Settles O4: the reset state and the state after the reset input hold the reset values, which give the table. -/
theorem powerOnResetTable : Obligations.PowerOnResetTable := by
  unfold Obligations.PowerOnResetTable
  refine ⟨State.asPoweredOn_of_reset_fields rfl rfl rfl rfl, fun s rest h => ?_, fun s t h => ?_⟩
  · refine ⟨_, step_of_powerOnReset h, State.asPoweredOn_of_reset_fields rfl rfl rfl rfl, fun hidle => ?_, rfl, rfl⟩
    rw [State.landing_of_idle (s := s.afterAction rest) hidle]
    rfl
  · obtain rfl := Host.Outcome.next.inj ((execReset_eq s).symm.trans h)
    rfl

end Sys2Proof.Machine
end

section
/-! What every step keeps (spec/10_state.md section 3, spec/20_memory.md section 1): the invariant, the platform, the
ARG registers and host memory but for what an action or a command names. The obligations of this family stand at the
end. -/

namespace Sys2Proof.Machine

/-! ### The engine (R38) -/

/-- R38: no step breaks the engine's invariants. -/
theorem step_next_sound {s t : State} (h : step s = .next t) : t.engine.sound = true := by
  obtain ⟨hs, -⟩ := step_next h
  rcases step_next_engine h with he | ⟨-, he⟩ | ⟨-, hf, he, -⟩ | ⟨-, bs, he⟩ | ⟨-, he, -⟩
  · rwa [he]
  · rw [he]
    exact Engine.init_sound
  · rw [Engine.sound_iff] at hs
    obtain ⟨hblen, htotal, -⟩ := hs
    rw [he, Engine.sound_iff]
    exact ⟨hblen, htotal, fun _ => hf⟩
  · rw [he]
    exact Engine.absorb_sound hs bs
  · rw [he]
    exact Engine.forResult_sound hs

/-- R38: the three ways to break the engine's invariants. -/
theorem Engine.unsound_of_broken {e : Engine}
    (h : 128 ≤ e.blen ∨ e.total.toNat % 128 ≠ 0 ∨ (e.cor = true ∧ e.fin = false)) : e.sound = false := by
  refine Bool.eq_false_iff.mpr fun hs => ?_
  obtain ⟨hblen, htotal, hcor⟩ := (Engine.sound_iff e).mp hs
  rcases h with h | h | ⟨hc, hf⟩
  · omega
  · exact h htotal
  · simp [hcor hc] at hf

/-! ### What lies outside the block (R5, R22) -/

/-- R22: no command changes the ARG registers, the platform or what belongs to HOST. -/
theorem exec_next_sameOutside {i : Instr} {s t : State} (h : exec i s = .next t) : s.SameOutside t := by
  rcases exec_next h with ⟨e, -, rfl⟩ | ⟨-, -, rfl⟩ | ⟨-, rfl⟩ | ⟨-, -, rfl⟩ | ⟨-, -, rfl⟩ | ⟨-, -, rfl⟩
  · exact ⟨rfl, rfl, rfl, rfl, rfl⟩
  · exact ⟨rfl, rfl, rfl, rfl, rfl⟩
  · exact ⟨rfl, rfl, rfl, rfl, rfl⟩
  · exact ⟨s.afterInput_args, s.afterInput_platform, s.afterInput_events, s.afterInput_turns, s.afterInput_observed⟩
  · exact s.afterResult_sameOutside
  · exact s.afterHmac_sameOutside

theorem externalEvent_next_platform {s t : State} {e : ExternalEvent} (h : externalEvent s e = .next t) :
    t.platform = s.platform := by
  rcases externalEvent_next h with ⟨-, -, v, r, -, -, -, rfl⟩ | ⟨-, -, -, -, -, rfl⟩ | ⟨-, -, rfl⟩ | ⟨-, -, rfl⟩
    | ⟨-, -, -, -, -, rfl⟩ | ⟨-, -, -, rfl⟩ | ⟨-, -, -, rfl⟩ | ⟨-, rfl⟩
  · exact s.writeReg_platform r v
  all_goals rfl

theorem step_next_platform {s t : State} (h : step s = .next t) : t.platform = s.platform := by
  rcases step_cases h with ⟨-, rfl⟩ | ⟨-, rfl⟩ | ⟨i, -, hx⟩ | ⟨-, rfl⟩ | ⟨e, rest, -, hx⟩
  · rfl
  · rfl
  · obtain ⟨-, hplatform, -⟩ := exec_next_sameOutside hx
    exact hplatform
  · rfl
  · exact externalEvent_next_platform (s := s.afterAction rest) hx

/-- R22: a register write changes ARG registers only at their own offsets. -/
theorem State.writeReg_args (s : State) (r : Reg) (v : Word) :
    (s.writeReg r v).args = s.args ∨ r.offset ∈ [0x08, 0x10, 0x18, 0x20, 0x28] := by
  cases r with
  | cmd | status | info => exact .inl rfl
  | arg0 | arg1 | arg2 | arg3 | arg4 => exact .inr (by decide)

/-- Everything an action of the outside world can do to the ARG registers. -/
theorem externalEvent_next_args {s t : State} {e : ExternalEvent} (h : externalEvent s e = .next t) :
    t.args = s.args ∨ e = .powerOnReset
    ∨ (s.busy = false ∧ ∃ off v, e = .regWrite (s.platform.regBase + off) 8 v
        ∧ off ∈ [0x08, 0x10, 0x18, 0x20, 0x28]) := by
  rcases externalEvent_next h with ⟨addr, width, v, r, rfl, hr, hb, rfl⟩ | ⟨-, -, -, -, -, rfl⟩ | ⟨-, -, rfl⟩
    | ⟨-, -, rfl⟩ | ⟨-, -, -, -, -, rfl⟩ | ⟨-, -, -, rfl⟩ | ⟨-, -, -, rfl⟩ | ⟨he, -⟩
  · obtain ⟨rfl, rfl⟩ := regAccessed_eq_some hr
    rcases s.writeReg_args r v with hargs | hoff
    · exact .inl hargs
    · exact .inr (.inr ⟨hb, r.offset, v, rfl, hoff⟩)
  · exact .inl rfl
  · exact .inl rfl
  · exact .inl rfl
  · exact .inl rfl
  · exact .inl rfl
  · exact .inl rfl
  · exact .inr (.inl he)

/-- Everything a step can do to the ARG registers. -/
theorem step_next_args {s t : State} (h : step s = .next t) :
    t.args = s.args ∨ (∃ rest, s.actsNow .powerOnReset rest)
    ∨ (s.busy = false ∧ ∃ rest off v, s.actsNow (.regWrite (s.platform.regBase + off) 8 v) rest
        ∧ off ∈ [0x08, 0x10, 0x18, 0x20, 0x28]) := by
  rcases step_cases h with ⟨-, rfl⟩ | ⟨-, rfl⟩ | ⟨i, -, hx⟩ | ⟨-, rfl⟩ | ⟨e, rest, hact, hx⟩
  · exact .inl rfl
  · exact .inl rfl
  · obtain ⟨hargs, -⟩ := exec_next_sameOutside hx
    exact .inl hargs
  · exact .inl rfl
  · rcases externalEvent_next_args hx with hargs | rfl | ⟨hb, off, v, rfl, hoff⟩
    · exact .inl hargs
    · exact .inr (.inl ⟨rest, hact⟩)
    · exact .inr (.inr ⟨hb, rest, off, v, hact, hoff⟩)

/-! ### Host memory (R60, R71) -/

/-- Everything a command can do to host memory: nothing, or to write the bytes of a range that it names, which does
not wrap. -/
theorem exec_next_mem {i : Instr} {s t : State} (h : exec i s = .next t) :
    t.mem = s.mem
    ∨ ∃ g ∈ writeRanges i s.operands, g.representable s.platform = true
        ∧ ∃ bs : List Byte, bs.length = g.len ∧ t.mem = s.mem.writeBytes g.base bs := by
  rcases exec_next h with ⟨e, -, rfl⟩ | ⟨-, -, rfl⟩ | ⟨-, rfl⟩ | ⟨-, -, rfl⟩ | ⟨rfl, ⟨hrep, -⟩, rfl⟩
    | ⟨rfl, ⟨-, -, hrep, -⟩, rfl⟩
  · exact .inl rfl
  · exact .inl rfl
  · exact .inl rfl
  · exact .inl s.afterInput_mem
  · exact .inr ⟨_, List.mem_singleton_self _, hrep, _, length_serialise _, s.afterResult_mem⟩
  · exact .inr ⟨_, List.mem_singleton_self _, hrep, _, length_hmacSha512 _ _, s.afterHmac_mem⟩

/-- Everything an action of the outside world can do to host memory. -/
theorem externalEvent_next_mem {s t : State} {e : ExternalEvent} (h : externalEvent s e = .next t) :
    t.mem = s.mem
    ∨ (∃ a b, e = .memWrite a b ∧ a < 2 ^ s.platform.addrWidth ∧ t.mem = s.mem.write a b)
    ∨ (e = .powerOnReset ∧ t.mem = cutShort s.platform s.draws s.mem s.landing) := by
  rcases externalEvent_next h with ⟨-, -, v, r, -, -, -, rfl⟩ | ⟨-, -, -, -, -, rfl⟩ | ⟨-, -, rfl⟩ | ⟨-, -, rfl⟩
    | ⟨a, b, he, ha, -, rfl⟩ | ⟨-, -, -, rfl⟩ | ⟨-, -, -, rfl⟩ | ⟨he, rfl⟩
  · exact .inl (s.writeReg_mem r v)
  · exact .inl rfl
  · exact .inl rfl
  · exact .inl rfl
  · exact .inr (.inl ⟨a, b, he, ha, rfl⟩)
  · exact .inl rfl
  · exact .inl rfl
  · exact .inr (.inr ⟨he, rfl⟩)

/-- Everything a step can do to host memory: nothing, a command's write of a range it names, HOST's write of a byte,
and what power-on reset leaves of a running command's output. -/
theorem step_next_mem {s t : State} (h : step s = .next t) :
    t.mem = s.mem
    ∨ (∃ i, s.runsNow i ∧ ∃ g ∈ writeRanges i s.operands, g.representable s.platform = true
        ∧ ∃ bs : List Byte, bs.length = g.len ∧ t.mem = s.mem.writeBytes g.base bs)
    ∨ (∃ rest a b, s.actsNow (.memWrite a b) rest ∧ a < 2 ^ s.platform.addrWidth ∧ t.mem = s.mem.write a b)
    ∨ ∃ rest, s.actsNow .powerOnReset rest
        ∧ t.mem = cutShort s.platform s.draws s.mem (s.afterAction rest).landing := by
  rcases step_cases h with ⟨-, rfl⟩ | ⟨-, rfl⟩ | ⟨i, hi, hx⟩ | ⟨-, rfl⟩ | ⟨e, rest, hact, hx⟩
  · exact .inl rfl
  · exact .inl rfl
  · exact (exec_next_mem hx).imp_right fun hwrites => .inl ⟨i, hi, hwrites⟩
  · exact .inl rfl
  · rcases externalEvent_next_mem hx with hmem | ⟨a, b, rfl, ha, hmem⟩ | ⟨rfl, hmem⟩
    · exact .inl hmem
    · exact .inr (.inr (.inl ⟨rest, a, b, hact, ha, hmem⟩))
    · exact .inr (.inr (.inr ⟨rest, hact, hmem⟩))

theorem step_keeps_mem_wf {s t : State} (h : step s = .next t) (hm : s.mem.wf = true) : t.mem.wf = true := by
  rcases step_next_mem h with hmem | ⟨-, -, g, -, -, bs, -, hmem⟩ | ⟨-, a, b, -, -, hmem⟩
    | ⟨rest, -, hmem⟩ <;> rw [hmem]
  · exact hm
  · exact Memory.wf_writeBytes hm _ _
  · exact Memory.wf_write hm _ _
  · exact cutShort_wf hm

/-- R60(a): every step keeps the listed bytes inside host memory: a range that a command writes does not wrap, and
HOST's writes are below the top. -/
theorem step_keeps_memoryInside {s t : State} (h : step s = .next t) (hm : s.memoryInside = true) :
    t.memoryInside = true := by
  rw [State.memoryInside, step_next_platform h]
  rcases step_next_mem h with hmem | ⟨-, -, g, -, hrep, bs, hlen, hmem⟩ | ⟨-, a, b, -, ha, hmem⟩
    | ⟨rest, -, hmem⟩ <;> rw [hmem]
  · exact hm
  · rcases Range.representable_iff.mp hrep with hzero | htop
    · rw [List.length_eq_zero_iff.mp (hlen.trans hzero)]
      exact hm
    · exact Memory.writeBytes_inside (by rwa [hlen]) hm
  · exact storeCell_inside ha hm
  · exact cutShort_inside hm

/-! ### The latched operands (R90) -/

theorem State.latched_of_idle {s : State} (h : s.running = none) : s.latched = true := by simp [State.latched, h]

/-- R90: a register write while BUSY = 0 leaves nothing latched, but for CMD, which latches the ARG registers as they
are. -/
theorem State.writeReg_latched {s : State} (h : s.busy = false) (r : Reg) (v : Word) :
    (s.writeReg r v).latched = true := by
  have hidle : s.running = none := by simpa [State.busy] using h
  cases r with
  | cmd => simp [State.writeReg, State.latched]
  | arg0 | arg1 | arg2 | arg3 | arg4 | status | info => exact State.latched_of_idle hidle

theorem externalEvent_keeps_latched {s t : State} {e : ExternalEvent} (h : externalEvent s e = .next t)
    (hl : s.latched = true) : t.latched = true := by
  rcases externalEvent_next h with ⟨-, -, v, r, -, -, hb, rfl⟩ | ⟨-, -, -, -, -, rfl⟩ | ⟨-, -, rfl⟩ | ⟨-, -, rfl⟩
    | ⟨-, -, -, -, -, rfl⟩ | ⟨-, -, -, rfl⟩ | ⟨-, -, -, rfl⟩ | ⟨-, rfl⟩
  · exact State.writeReg_latched hb r v
  · exact hl
  · exact hl
  · exact hl
  · exact hl
  · exact hl
  · exact hl
  · exact State.latched_of_idle rfl

theorem step_keeps_latched {s t : State} (h : step s = .next t) (hl : s.latched = true) : t.latched = true := by
  rcases step_cases h with ⟨-, rfl⟩ | ⟨-, rfl⟩ | ⟨i, -, hx⟩ | ⟨-, rfl⟩ | ⟨e, rest, -, hx⟩
  · exact hl
  · exact State.latched_of_idle rfl
  · exact State.latched_of_idle (exec_next_running hx)
  · exact hl
  · exact externalEvent_keeps_latched hx hl

/-! ### ERR (R240) -/

theorem exec_next_err {i : Instr} {s t : State} (h : exec i s = .next t) : ∃ e, t.err = errCode e := by
  rcases exec_next h with ⟨e, -, rfl⟩ | ⟨-, -, rfl⟩ | ⟨-, rfl⟩ | ⟨-, -, rfl⟩ | ⟨-, -, rfl⟩ | ⟨-, -, rfl⟩
  · exact ⟨e, rfl⟩
  · exact ⟨.alreadyFinalized, rfl⟩
  all_goals exact ⟨.ok, rfl⟩

theorem externalEvent_next_err {s t : State} {e : ExternalEvent} (h : externalEvent s e = .next t) :
    t.err = s.err ∨ t.err = 0 := by
  rcases externalEvent_next h with ⟨-, -, v, r, -, -, -, rfl⟩ | ⟨-, -, -, -, -, rfl⟩ | ⟨-, -, rfl⟩ | ⟨-, -, rfl⟩
    | ⟨-, -, -, -, -, rfl⟩ | ⟨-, -, -, rfl⟩ | ⟨-, -, -, rfl⟩ | ⟨-, rfl⟩
  · exact .inl (s.writeReg_err r v)
  · exact .inl rfl
  · exact .inl rfl
  · exact .inl rfl
  · exact .inl rfl
  · exact .inl rfl
  · exact .inl rfl
  · exact .inr rfl

/-- R240: ERR never takes a reserved code. -/
theorem step_keeps_err {s t : State} (h : step s = .next t) (he : s.err.toNat ≤ 4) : t.err.toNat ≤ 4 := by
  rcases step_cases h with ⟨-, rfl⟩ | ⟨-, rfl⟩ | ⟨i, -, hx⟩ | ⟨-, rfl⟩ | ⟨e, rest, -, hx⟩
  · exact he
  · exact errCode_le_four .illegalCommand
  · obtain ⟨e, herr⟩ := exec_next_err hx
    rw [herr]
    exact errCode_le_four e
  · exact he
  · rcases externalEvent_next_err hx with herr | herr <;> rw [herr]
    · exact he
    · exact Nat.zero_le 4

/-! ### The obligations -/

/-- Settles O2, part by part of the invariant, from what a step can do to each. -/
theorem stepKeepsInvariant : Obligations.StepKeepsInvariant := by
  unfold Obligations.StepKeepsInvariant
  rintro s t ⟨hplatform, -, hwf, hinside, hlatched, herr⟩ h
  exact ⟨by rwa [step_next_platform h], step_next_sound h, step_keeps_mem_wf h hwf, step_keeps_memoryInside h hinside,
    step_keeps_latched h hlatched, step_keeps_err h herr⟩

/-- Settles O1, by evaluating the invariant at reset. -/
theorem resetStateMeetsInvariant : Obligations.ResetStateMeetsInvariant := by
  unfold Obligations.ResetStateMeetsInvariant
  exact ⟨by decide, Engine.init_sound, State.reset_mem_wf, rfl, State.latched_of_idle rfl, by decide⟩

/-- Settles O3: the check of R38 stops a broken state, and a next state's engine is sound. -/
theorem brokenEngineFaults : Obligations.BrokenEngineFaults := by
  unfold Obligations.BrokenEngineFaults
  refine ⟨fun s h => step_of_unsound (Engine.unsound_of_broken h), fun s t h => ?_⟩
  obtain ⟨hblen, htotal, hcor⟩ := (Engine.sound_iff _).mp (step_next_sound h)
  exact ⟨hblen, htotal, hcor, Vector.length_toList⟩

/-- Settles O47, from what a step can do to the ARG registers and to the platform. -/
theorem argsChangeOnlyFromOutside : Obligations.ArgsChangeOnlyFromOutside := by
  unfold Obligations.ArgsChangeOnlyFromOutside
  exact fun s t h => ⟨step_next_platform h, step_next_args h⟩

/-- Settles O48: a byte outside the range written, of another address or outside the output cut short reads as before.
-/
theorem memoryChangesOnlyWhereNamed : Obligations.MemoryChangesOnlyWhereNamed := by
  unfold Obligations.MemoryChangesOnlyWhereNamed
  intro s t a h hne
  rcases step_next_mem h with hmem | ⟨i, ⟨ha, r, hr, hd⟩, g, hg, -, bs, hlen, hmem⟩ | ⟨rest, a', b, hact, -, hmem⟩
    | ⟨rest, hact, hmem⟩ <;> rw [hmem] at hne
  · exact absurd rfl hne
  · rw [State.operands_of_running hr] at hg
    refine .inl ⟨ha, r, i, hr, hd, g, hg, ?_⟩
    by_contra hout
    exact hne (Memory.read_writeBytes_outside _ _ (by rw [hlen]; omega))
  · obtain rfl : a = a' := by
      by_contra hother
      exact hne (Memory.read_write_other _ _ hother)
    exact .inr (.inl ⟨rest, b, hact⟩)
  · refine .inr (.inr ⟨⟨rest, hact⟩, ?_⟩)
    by_contra hout
    refine hne (cutShort_read_outside fun g hg => ?_)
    obtain ⟨hwrites, -⟩ := State.mem_landing hg
    by_contra hin
    exact hout ⟨g, hwrites, by omega⟩

end Sys2Proof.Machine
end

section
/-! What never shows (spec/10_state.md sections 3 and 4): from states that differ only in the bytes of BUF past BLEN
and in the datapath, a turn of CORE and a turn of HOST stop alike or lead to states that differ only so. The
obligation stands at the end. -/

namespace Sys2Proof.Machine

/-! ### Related outcomes -/

section OutcomesRelated
variable {related : State → State → Prop} {k k' : StepResult}

/-- Related outcomes are two next states that are related, or the same stop. -/
theorem OutcomesRelated.cases (h : OutcomesRelated related k k') :
    (∃ t u, k = .next t ∧ k' = .next u ∧ related t u)
    ∨ (∃ f, k = .fault f ∧ k' = .fault f) ∨ ∃ r, k = .refused r ∧ k' = .refused r := by
  cases k with
  | next t =>
    cases k' with
    | next u => exact .inl ⟨t, u, rfl, rfl, h⟩
    | fault | refused => exact h.elim
  | fault f =>
    cases k' with
    | fault f' => exact .inr (.inl ⟨f, rfl, congrArg _ (Eq.symm h)⟩)
    | next | refused => exact h.elim
  | refused r =>
    cases k' with
    | refused r' => exact .inr (.inr ⟨r, rfl, congrArg _ (Eq.symm h)⟩)
    | next | fault => exact h.elim

theorem OutcomesRelated.next {t u : State} (h : related t u) : OutcomesRelated related (.next t) (.next u) := h

/-- R64, R68: accesses to the same ranges stop alike, or have their effects' outcomes. -/
theorem OutcomesRelated.accessing (h : OutcomesRelated related k k') (s : State) (ranges : List Range) :
    OutcomesRelated related (s.accessing ranges k) (s.accessing ranges k') := by
  rcases s.accessing_cases ranges with hk | hk | hk <;> rw [hk, hk]
  · exact h
  · rfl
  · rfl

theorem OutcomesRelated.hostAccess (h : OutcomesRelated related k k') (s : State) (a : Nat) :
    OutcomesRelated related (s.hostAccess a k) (s.hostAccess a k') := by
  unfold State.hostAccess
  split
  · exact h.accessing s _
  · rfl

end OutcomesRelated

/-! ### Engines that differ only in the bytes of BUF past BLEN (R33) -/

/-- R33: the engines differ at most in the bytes of BUF at and past BLEN. -/
structure Engine.Alike (e e' : Engine) : Prop where
  h        : e'.h = e.h
  blen     : e'.blen = e.blen
  total    : e'.total = e.total
  fin      : e'.fin = e.fin
  cor      : e'.cor = e.cor
  buffered : e'.buffered = e.buffered

theorem Engine.Alike.refl (e : Engine) : e.Alike e := ⟨rfl, rfl, rfl, rfl, rfl, rfl⟩

section Alike
variable {e e' : Engine}

theorem Engine.Alike.sound (h : e.Alike e') : e'.sound = e.sound := by
  rw [Engine.sound, Engine.sound, h.blen, h.total, h.fin, h.cor]

/-- R130: absorbing looks at the buffered bytes only. -/
theorem Engine.Alike.absorb (h : e.Alike e') (hb : e.blen < 128) (bs : List Byte) :
    (e.absorb bs).Alike (e'.absorb bs) := by
  obtain ⟨hh, hblen, hbuffered, htotal⟩ := Engine.absorb_blocks e bs hb
  obtain ⟨hh', hblen', hbuffered', htotal'⟩ := Engine.absorb_blocks e' bs (by rwa [h.blen])
  rw [h.buffered] at hh' hblen' hbuffered' htotal'
  exact ⟨by rw [hh', hh, h.h], by rw [hblen', hblen], by rw [htotal', htotal, h.total], by simp [h.fin],
    by simp [h.cor], by rw [hbuffered', hbuffered]⟩

/-- R140: the padded tail is made of the buffered bytes and the counts. -/
theorem Engine.Alike.padded (h : e.Alike e') : e'.padded = e.padded := by
  rw [Engine.padded, Engine.padded, ← Engine.buffered, ← Engine.buffered, h.buffered, Engine.bitLength,
    Engine.bitLength, h.blen, h.total]

/-- R140: after finalizing, BUF holds the padded tail, and past it what it held before. -/
theorem Engine.finalize_buf (hb : e.blen < 128) :
    e.finalize.buf.toList = e.padded ++ e.buf.toList.drop (128 * finalBlocks e.blen) := by
  have hblocks : 128 * finalBlocks e.blen ≤ 256 := by
    unfold finalBlocks
    split <;> omega
  have hfill := fillBuf_toList e.buf 0 e.padded (by rw [Engine.length_padded hb]; omega)
  rwa [Engine.length_padded hb, Nat.zero_add, List.take_zero, List.nil_append] at hfill

/-- R140: the padded tail begins with the buffered bytes, so finalizing keeps them. -/
theorem Engine.finalize_buffered (hb : e.blen < 128) : e.finalize.buffered = e.buffered := by
  rw [Engine.buffered, Engine.finalize_buf hb, Engine.finalize_blen, Engine.padded, ← Engine.buffered]
  simp only [List.append_assoc]
  exact List.take_left' (Engine.length_buffered hb)

theorem Engine.Alike.finalize_h (h : e.Alike e') : e'.finalize.h = e.finalize.h := by
  simp only [Engine.finalize, h.padded, h.h, h.blen]

theorem Engine.Alike.finalize (h : e.Alike e') (hb : e.blen < 128) : e.finalize.Alike e'.finalize :=
  ⟨h.finalize_h, h.blen, h.total, rfl, h.cor, by
    rw [Engine.finalize_buffered hb, Engine.finalize_buffered (by rwa [h.blen]), h.buffered]⟩

theorem Engine.Alike.forResult (h : e.Alike e') (hb : e.blen < 128) : e.forResult.Alike e'.forResult := by
  rw [Engine.forResult, Engine.forResult, h.fin]
  split
  · exact h
  · exact h.finalize hb

end Alike

/-! ### States that differ only in what is hidden (R33, R39) -/

/-- R33, R39: the states differ at most in the bytes of BUF at and past BLEN and in the datapath. -/
def State.Alike (s s' : State) : Prop :=
  ∃ (e : Engine) (d : Datapath), s.engine.Alike e ∧ s' = { s with engine := e, datapath := d }

/-- The bytes that `eraseHidden` keeps are the buffered ones. -/
theorem Engine.erased_buf_eq_iff {e e' : Engine} (hblen : e'.blen = e.blen) :
    Vector.ofFn (fun i : Fin 256 => if i.val < e.blen then e.buf[i] else 0)
        = Vector.ofFn (fun i : Fin 256 => if i.val < e'.blen then e'.buf[i] else 0)
      ↔ e'.buffered = e.buffered := by
  rw [hblen]
  constructor
  · intro h
    refine List.ext_getElem (by simp [Engine.buffered, hblen]) fun i hi hi' => ?_
    have hlt : i < e.blen ∧ i < 256 := by simpa [Engine.buffered] using hi'
    have hbyte := congrArg (fun v : Vector Byte 256 => v[i]) h
    simpa [Engine.buffered, hlt.1] using hbyte.symm
  · intro h
    refine Vector.ext fun i hi => ?_
    have hbyte := congrArg (fun l : List Byte => l[i]?) h
    by_cases hlt : i < e.blen
    · simpa [Engine.buffered, hblen, hlt, hi] using hbyte.symm
    · simp [hlt]

theorem State.eraseHidden_eq_iff_alike {s s' : State} : s.eraseHidden = s'.eraseHidden ↔ s.Alike s' := by
  constructor
  · intro h
    simp only [State.eraseHidden, State.mk.injEq, Engine.mk.injEq, true_and] at h
    obtain ⟨hplatform, hargs, herr, hrun, ⟨hh, hbuf, hblen, htotal, hfin, hcor⟩, hmem, hevents, hturns, hobs,
      hdraws⟩ := h
    refine ⟨s'.engine, s'.datapath, ⟨hh.symm, hblen.symm, htotal.symm, hfin.symm, hcor.symm,
      (Engine.erased_buf_eq_iff hblen.symm).mp hbuf⟩, ?_⟩
    rw [hplatform, hargs, herr, hrun, hmem, hevents, hturns, hobs, hdraws]
  · rintro ⟨e, d, h, rfl⟩
    simp only [State.eraseHidden, h.h, h.total, h.fin, h.cor, (Engine.erased_buf_eq_iff h.blen).mpr h.buffered, h.blen]

/-- Outcomes related so are equal once the hidden part is erased. -/
theorem eraseOutcome_eq_of_alike {o o' : StepResult} (h : OutcomesRelated State.Alike o o') :
    eraseOutcome o = eraseOutcome o' := by
  rcases h.cases with ⟨t, u, rfl, rfl, htu⟩ | ⟨f, rfl, rfl⟩ | ⟨r, rfl, rfl⟩
  · exact congrArg Host.Outcome.next (State.eraseHidden_eq_iff_alike.mpr htu)
  · rfl
  · rfl

/-! ### CORE's turn (R130, R141, R210) -/

section Commands
variable {s s' : State}

theorem State.Alike.refl (s : State) : s.Alike s := ⟨s.engine, s.datapath, Engine.Alike.refl _, rfl⟩

theorem State.Alike.platform (h : s.Alike s') : s'.platform = s.platform := by
  obtain ⟨e, d, -, rfl⟩ := h
  rfl

theorem State.Alike.running (h : s.Alike s') : s'.running = s.running := by
  obtain ⟨e, d, -, rfl⟩ := h
  rfl

theorem State.Alike.events (h : s.Alike s') : s'.events = s.events := by
  obtain ⟨e, d, -, rfl⟩ := h
  rfl

theorem State.Alike.mem (h : s.Alike s') : s'.mem = s.mem := by
  obtain ⟨e, d, -, rfl⟩ := h
  rfl

theorem State.Alike.operands (h : s.Alike s') : s'.operands = s.operands := by
  obtain ⟨e, d, -, rfl⟩ := h
  rfl

theorem State.Alike.busy (h : s.Alike s') : s'.busy = s.busy := by rw [State.busy, State.busy, h.running]

theorem State.Alike.sound (h : s.Alike s') : s'.engine.sound = s.engine.sound := by
  obtain ⟨e, d, he, rfl⟩ := h
  exact he.sound

theorem State.Alike.finish (h : s.Alike s') (e : Err) : (s.finish e).Alike (s'.finish e) := by
  obtain ⟨e, d, he, rfl⟩ := h
  exact ⟨e, d, he, rfl⟩

/-- R39: what a command leaves in the datapath is hidden, and the count of free values is not. -/
theorem State.Alike.leaveDatapath (h : s.Alike s') (n : Nat) : (s.leaveDatapath n).Alike (s'.leaveDatapath n) := by
  obtain ⟨e, d, he, rfl⟩ := h
  unfold State.leaveDatapath
  split
  · exact ⟨e, d, he, rfl⟩
  · exact ⟨e, _, he, rfl⟩

theorem State.Alike.afterInput (h : s.Alike s') (hb : s.engine.blen < 128) : s.afterInput.Alike s'.afterInput := by
  obtain ⟨e, d, he, rfl⟩ := h
  have hblocks : ∀ n, e.absorbBlocks n = s.engine.absorbBlocks n := fun n => by
    rw [Engine.absorbBlocks, Engine.absorbBlocks, he.blen]
  rw [State.afterInput, State.afterInput, hblocks]
  exact State.Alike.finish (State.Alike.leaveDatapath ⟨_, d, he.absorb hb _, rfl⟩ _) _

theorem State.Alike.afterResult (h : s.Alike s') (hb : s.engine.blen < 128) : s.afterResult.Alike s'.afterResult := by
  obtain ⟨e, d, he, rfl⟩ := h
  have hresult := he.forResult hb
  rw [State.afterResult, State.afterResult, hresult.h, he.fin, he.blen]
  exact State.Alike.finish (State.Alike.leaveDatapath ⟨_, d, hresult, rfl⟩ _) _

theorem State.Alike.afterHmac (h : s.Alike s') : s.afterHmac.Alike s'.afterHmac := by
  rw [State.afterHmac, State.afterHmac, h.mem, h.operands]
  generalize hmacSha512 _ _ = code
  obtain ⟨e, d, he, rfl⟩ := h
  refine State.Alike.finish (State.Alike.leaveDatapath ?_ _) _
  exact ⟨e, d, he, rfl⟩

theorem execInput_alike (h : s.Alike s') (hb : s.engine.blen < 128) :
    OutcomesRelated State.Alike (execInput s) (execInput s') := by
  have hafter := h.afterInput hb
  obtain ⟨e, d, he, rfl⟩ := h
  cases hr : s.operands.inputRange.representable s.platform with
  | false =>
    rw [execInput_of_wraps hr, execInput_of_wraps (s := { s with engine := e, datapath := d }) hr]
    exact ⟨e, d, he, rfl⟩
  | true =>
    cases hf : s.engine.fin with
    | true =>
      rw [execInput_of_fin hr hf, execInput_of_fin (s := { s with engine := e, datapath := d }) hr (he.fin.trans hf)]
      exact ⟨{ e with cor := true }, d, ⟨he.h, he.blen, he.total, he.fin, rfl, he.buffered⟩, rfl⟩
    | false =>
      rw [execInput_accesses hr hf,
        execInput_accesses (s := { s with engine := e, datapath := d }) hr (he.fin.trans hf)]
      exact OutcomesRelated.accessing (OutcomesRelated.next hafter) s _

theorem execResult_alike (h : s.Alike s') (hb : s.engine.blen < 128) :
    OutcomesRelated State.Alike (execResult s) (execResult s') := by
  have hafter := h.afterResult hb
  obtain ⟨e, d, he, rfl⟩ := h
  cases hr : s.operands.resultRange.representable s.platform with
  | false =>
    rw [execResult_of_wraps hr, execResult_of_wraps (s := { s with engine := e, datapath := d }) hr]
    exact ⟨e, d, he, rfl⟩
  | true =>
    cases hc : s.engine.cor with
    | true =>
      rw [execResult_of_cor hr hc, execResult_of_cor (s := { s with engine := e, datapath := d }) hr (he.cor.trans hc)]
      exact ⟨e, d, he, rfl⟩
    | false =>
      rw [execResult_accesses hr hc,
        execResult_accesses (s := { s with engine := e, datapath := d }) hr (he.cor.trans hc)]
      exact OutcomesRelated.accessing (OutcomesRelated.next hafter) s _

theorem execHmac_alike (h : s.Alike s') : OutcomesRelated State.Alike (execHmac s) (execHmac s') := by
  have hafter := h.afterHmac
  obtain ⟨e, d, he, rfl⟩ := h
  by_cases hw : s.operands.messageRange.representable s.platform = false
      ∨ s.operands.keyRange.representable s.platform = false
      ∨ s.operands.hmacRange.representable s.platform = false
  · rw [execHmac_of_wraps hw, execHmac_of_wraps (s := { s with engine := e, datapath := d }) hw]
    exact ⟨e, d, he, rfl⟩
  · simp only [not_or, Bool.not_eq_false] at hw
    obtain ⟨hm, hk, ho⟩ := hw
    rw [execHmac_accesses hm hk ho, execHmac_accesses (s := { s with engine := e, datapath := d }) hm hk ho]
    exact OutcomesRelated.accessing (OutcomesRelated.next hafter) s _

theorem exec_alike (i : Instr) (h : s.Alike s') (hb : s.engine.blen < 128) :
    OutcomesRelated State.Alike (exec i s) (exec i s') := by
  cases i with
  | reset =>
    obtain ⟨e, d, he, rfl⟩ := h
    exact ⟨Engine.init, d, Engine.Alike.refl _, rfl⟩
  | input => exact execInput_alike h hb
  | result => exact execResult_alike h hb
  | hmac => exact execHmac_alike h

theorem coreStep_alike (h : s.Alike s') (hb : s.engine.blen < 128) :
    OutcomesRelated State.Alike (coreStep s) (coreStep s') := by
  cases hr : s.running with
  | none =>
    rw [coreStep_of_idle hr, coreStep_of_idle (h.running.trans hr)]
    exact h
  | some r =>
    cases hd : decode r.word with
    | illegal why =>
      rw [coreStep_of_illegal hr hd, coreStep_of_illegal (h.running.trans hr) hd]
      exact h.finish _
    | instr i =>
      rw [coreStep_of_instr hr hd, coreStep_of_instr (h.running.trans hr) hd]
      exact exec_alike i h hb

/-! ### HOST's turn (R9, R20 to R29, R280) -/

/-- Assumption 13: what a power-on reset would take of a running command's output does not depend on what is hidden.
-/
theorem State.Alike.landing (h : s.Alike s') (hb : s.engine.blen < 128) : s'.landing = s.landing := by
  unfold State.landing
  rw [h.running]
  cases s.running with
  | none => rfl
  | some r =>
    cases hd : decode r.word with
    | illegal why => simp only [hd]
    | instr i =>
      rcases (exec_alike i h hb).cases with ⟨t, u, ht, hu, e, d, -, rfl⟩ | ⟨f, hf, hf'⟩ | ⟨x, hx, hx'⟩
      · simp only [hd, ht, hu]
      · simp only [hd, hf, hf']
      · simp only [hd, hx, hx']

theorem State.Alike.runningReads (h : s.Alike s') : s'.runningReads = s.runningReads := by
  rw [State.runningReads, State.runningReads, h.running]

theorem State.Alike.runningWrites (h : s.Alike s') : s'.runningWrites = s.runningWrites := by
  rw [State.runningWrites, State.runningWrites, h.running]

theorem State.Alike.hostAccess (h : s.Alike s') (a : Nat) (k : StepResult) : s'.hostAccess a k = s.hostAccess a k := by
  obtain ⟨e, d, -, rfl⟩ := h
  rfl

theorem State.Alike.readReg (h : s.Alike s') (r : Reg) : s'.readReg r = s.readReg r := by
  obtain ⟨e, d, he, rfl⟩ := h
  cases r with
  | status =>
    simp only [State.readReg, State.status, he.fin, he.cor]
    rfl
  | cmd | arg0 | arg1 | arg2 | arg3 | arg4 | info => rfl

theorem State.Alike.observeReg (h : s.Alike s') (r : Reg) : (s.observeReg r).Alike (s'.observeReg r) := by
  have hread := h.readReg r
  obtain ⟨e, d, he, rfl⟩ := h
  rw [State.observeReg, State.observeReg, hread]
  exact ⟨e, d, he, rfl⟩

theorem State.Alike.writeReg (h : s.Alike s') (r : Reg) (v : Word) : (s.writeReg r v).Alike (s'.writeReg r v) := by
  obtain ⟨e, d, he, rfl⟩ := h
  cases r with
  | cmd | arg0 | arg1 | arg2 | arg3 | arg4 | status | info => exact ⟨e, d, he, rfl⟩

theorem hostRegWrite_alike (h : s.Alike s') (addr width : Nat) (v : Word) :
    OutcomesRelated State.Alike (hostRegWrite s addr width v) (hostRegWrite s' addr width v) := by
  rw [hostRegWrite, hostRegWrite, h.platform, h.busy]
  cases regAccessed s.platform addr width with
  | none => rfl
  | some r =>
    cases s.busy with
    | true => rfl
    | false => exact h.writeReg r v

theorem hostRegRead_alike (h : s.Alike s') (addr width : Nat) :
    OutcomesRelated State.Alike (hostRegRead s addr width) (hostRegRead s' addr width) := by
  rw [hostRegRead, hostRegRead, h.platform]
  cases regAccessed s.platform addr width with
  | none => rfl
  | some r => exact h.observeReg r

theorem hostPoll_alike (h : s.Alike s') : OutcomesRelated State.Alike (hostPoll s) (hostPoll s') := by
  have hobserve := h.observeReg .status
  rw [hostPoll, hostPoll, h.busy]
  cases s.busy with
  | false => exact hobserve
  | true =>
    obtain ⟨e, d, he, hs'⟩ := hobserve
    refine ⟨e, d, he, ?_⟩
    rw [if_pos rfl, if_pos rfl, hs', h.events]

theorem hostMemWrite_alike (h : s.Alike s') (a : Nat) (b : Byte) :
    OutcomesRelated State.Alike (hostMemWrite s a b) (hostMemWrite s' a b) := by
  rw [hostMemWrite, hostMemWrite, h.runningReads, h.runningWrites, h.hostAccess]
  obtain ⟨e, d, he, rfl⟩ := h
  refine OutcomesRelated.hostAccess ?_ s a
  cases (s.runningReads ++ s.runningWrites).any (fun r => r.holds a) with
  | true => rfl
  | false => exact ⟨e, d, he, rfl⟩

theorem hostMemRead_alike (h : s.Alike s') (a : Nat) :
    OutcomesRelated State.Alike (hostMemRead s a) (hostMemRead s' a) := by
  rw [hostMemRead, hostMemRead, h.runningWrites, h.hostAccess]
  obtain ⟨e, d, he, rfl⟩ := h
  refine OutcomesRelated.hostAccess ?_ s a
  cases s.runningWrites.any (fun r => r.holds a) with
  | true => exact ⟨e, d, he, rfl⟩
  | false => exact ⟨e, d, he, rfl⟩

/-- R280: power-on reset replaces the engine and the datapath, and takes nothing else from them. -/
theorem powerOn_alike (h : s.Alike s') (hb : s.engine.blen < 128) :
    OutcomesRelated State.Alike (powerOn s) (powerOn s') := by
  have hlanding := h.landing hb
  obtain ⟨e, d, -, rfl⟩ := h
  rw [powerOn, powerOn, hlanding]
  exact State.Alike.refl _

theorem externalEvent_alike (ev : ExternalEvent) (h : s.Alike s') (hb : s.engine.blen < 128) :
    OutcomesRelated State.Alike (externalEvent s ev) (externalEvent s' ev) := by
  cases ev with
  | regWrite addr width v => exact hostRegWrite_alike h addr width v
  | regRead addr width => exact hostRegRead_alike h addr width
  | poll => exact hostPoll_alike h
  | memWrite a b => exact hostMemWrite_alike h a b
  | memRead a => exact hostMemRead_alike h a
  | powerOnReset => exact powerOn_alike h hb

theorem hostStep_alike (h : s.Alike s') (hb : s.engine.blen < 128) :
    OutcomesRelated State.Alike (hostStep s) (hostStep s') := by
  rw [hostStep, hostStep, h.events]
  cases s.events with
  | nil => exact h
  | cons ev rest =>
    have hdrop : (s.dropEvent rest).Alike (s'.dropEvent rest) := by
      obtain ⟨e, d, he, rfl⟩ := h
      exact ⟨e, d, he, rfl⟩
    exact externalEvent_alike ev hdrop hb

/-- R33, R40: a step from states that differ only in what is hidden. -/
theorem step_alike (h : s.Alike s') : OutcomesRelated State.Alike (step s) (step s') := by
  cases hs : s.engine.sound with
  | false =>
    rw [step_of_unsound hs, step_of_unsound (h.sound.trans hs)]
    rfl
  | true =>
    obtain ⟨hb, -⟩ := (Engine.sound_iff _).mp hs
    have hturn : s.takeTurn.Alike s'.takeTurn ∧ s'.nextAgent = s.nextAgent := by
      obtain ⟨e, d, he, rfl⟩ := h
      exact ⟨⟨e, d, he, rfl⟩, rfl⟩
    obtain ⟨htake, hnext⟩ := hturn
    cases ha : s.nextAgent with
    | core =>
      rw [step_of_core hs ha, step_of_core (h.sound.trans hs) (hnext.trans ha)]
      exact coreStep_alike htake hb
    | host =>
      rw [step_of_host hs ha, step_of_host (h.sound.trans hs) (hnext.trans ha)]
      exact hostStep_alike htake hb

end Commands

/-! ### The obligation -/

/-- Settles O50: what is hidden is what `Alike` states may differ in, and a step keeps them alike. -/
theorem hiddenStateNeverShows : Obligations.HiddenStateNeverShows := by
  unfold Obligations.HiddenStateNeverShows
  exact fun s s' h => eraseOutcome_eq_of_alike (step_alike (State.eraseHidden_eq_iff_alike.mp h))

end Sys2Proof.Machine
end

section
/-! Command issue and HOST's accesses to the window (spec/10_state.md section 1, spec/30_encoding.md): the words that
decode, the step that runs an accepted command, reads, writes, refusals and POLL. The obligations of this family stand
at the end. -/

namespace Sys2Proof.Machine

/-! ### Running an accepted command (R90) -/

/-- R90: CORE's turn on a command's word is the command's meaning. -/
theorem step_of_instr {s : State} {r : Running} {i : Instr} (hs : s.engine.sound = true) (ha : s.nextAgent = .core)
    (hr : s.running = some r) (hd : decode r.word = .instr i) : step s = exec i s.takeTurn :=
  (step_of_core hs ha).trans (coreStep_of_instr (s := s.takeTurn) hr hd)

theorem State.withFetchWord_encode (s : State) (i : Instr) :
    s.withFetchWord 64 (encode i).toNat = s.accepted (encode i) := by
  rw [State.withFetchWord, Nat.mod_eq_of_lt (encode i).isLt, BitVec.ofNat_toNat, BitVec.setWidth_eq]

/-! ### Reads (R20 to R24, R29) -/

theorem State.running_none_of_not_busy {s : State} (h : s.busy = false) : s.running = none := by
  simpa [State.busy] using h

/-- R29: a read that draws no free value changes nothing but what HOST has read. -/
theorem State.observeReg_of_no_draw {s : State} {r : Reg} (h : r ≠ .status ∨ s.busy = false) :
    s.observeReg r = { s with observed := .reg r (s.readReg r) :: s.observed } := by
  have hdraw : ¬(r = .status ∧ s.busy = true) := by
    rintro ⟨hr, hb⟩
    rcases h with hne | hidle
    · exact hne hr
    · simp [hidle] at hb
  rw [State.observeReg, if_neg hdraw]

/-- HOST's read of a register that draws no free value. -/
theorem step_of_regRead_no_draw {s : State} {r : Reg} {rest : List ExternalEvent}
    (h : s.actsNow (.regRead (s.platform.regBase + r.offset) 8) rest) (hr : r ≠ .status ∨ s.busy = false) :
    step s = .next { s.afterAction rest with observed := .reg r (s.readReg r) :: s.observed } :=
  (step_of_regRead h).trans (congrArg Host.Outcome.next (State.observeReg_of_no_draw (s := s.afterAction rest) hr))

/-- R23: while BUSY = 0, STATUS reads FIN, COR and ERR. -/
theorem State.readReg_status_of_not_busy {s : State} (h : s.busy = false) :
    s.readReg .status = statusWord false s.engine.fin s.engine.cor s.err := by
  have hidle := State.running_none_of_not_busy h
  rw [State.readReg_status_of_idle hidle, State.status_of_running_none hidle]

/-! ### POLL (R97) -/

theorem step_of_poll_idle {s : State} {rest : List ExternalEvent} (h : s.actsNow .poll rest) (hb : s.busy = false) :
    step s = .next { s.afterAction rest with
      observed := .reg .status (statusWord false s.engine.fin s.engine.cor s.err) :: s.observed } := by
  rw [step_of_action h, externalEvent, hostPoll, State.afterAction_busy, hb, if_neg Bool.false_ne_true,
    State.observeReg_of_no_draw (s := s.afterAction rest) (.inr hb), State.afterAction_readReg,
    State.readReg_status_of_not_busy hb]
  rfl

theorem step_of_poll_busy {s : State} {rest : List ExternalEvent} (h : s.actsNow .poll rest) (hb : s.busy = true) :
    step s = .next { (s.afterAction rest).observeReg .status with events := .poll :: rest } := by
  rw [step_of_action h, externalEvent, hostPoll, State.afterAction_busy, hb, if_pos rfl]
  rfl

/-! ### The terms of R29 -/

/-- R20: every register's offset is a multiple of 8 below 0x40. -/
theorem offset_bounds (r : Reg) : r.offset % 8 = 0 ∧ r.offset < 0x40 := by cases r <;> decide

theorem offset_eq_status_iff (r : Reg) : r.offset = 0x30 ↔ r = .status := by cases r <;> decide

/-- R29: an access of another width, below the window, misaligned or past its end names no register. -/
theorem regAccessed_eq_none {p : Platform} {addr width : Nat}
    (h : width ≠ 8 ∨ addr < p.regBase ∨ (addr - p.regBase) % 8 ≠ 0 ∨ 0x40 ≤ addr - p.regBase) :
    regAccessed p addr width = none := by
  cases hr : regAccessed p addr width with
  | none => rfl
  | some r =>
    obtain ⟨hwidth, haddr⟩ := regAccessed_eq_some hr
    obtain ⟨haligned, hend⟩ := offset_bounds r
    omega

/-- R20, R22, R90: a register write changes nothing but the accepted command and the ARG registers. -/
theorem State.writeReg_frame (s : State) (r : Reg) (v : Word) :
    s.writeReg r v = { s with running := (s.writeReg r v).running, args := (s.writeReg r v).args } := by
  cases r <;> rfl

/-! ### The obligations -/

/-- Settles O8, by decoding each word. -/
theorem commandWordsDecode : Obligations.CommandWordsDecode := by
  unfold Obligations.CommandWordsDecode
  decide

/-- Settles O10, by the decoder's fields: a word with no reserved bit set and a command's opcode is that command's
word. -/
theorem decodeInvertsEncode : Obligations.DecodeInvertsEncode := by
  unfold Obligations.DecodeInvertsEncode
  exact fun w i => decode_eq_instr_iff

/-- Settles O11: CMD's write latches the operands, and CORE's turn decodes the word back to its command. -/
theorem stepRunsAcceptedCommand : Obligations.StepRunsAcceptedCommand := by
  unfold Obligations.StepRunsAcceptedCommand
  refine ⟨fun s w rest h hb => ⟨_, step_of_regWrite (r := .cmd) h hb, rfl, rfl, rfl⟩,
    fun s i r hs ha hr hw _ => step_of_instr hs ha hr (decode_eq_instr_iff.mpr hw), fun s i hs => ?_⟩
  rw [State.withFetchWord_encode]
  exact step_of_instr (s := s.accepted (encode i)) hs rfl rfl (decode_encode_eq i)

/-- Settles O37, register by register. -/
theorem registerReadsReturnContents : Obligations.RegisterReadsReturnContents := by
  unfold Obligations.RegisterReadsReturnContents
  intro s off rest h
  refine ⟨?_, ?_, ?_, ?_, ?_, ?_, ?_⟩ <;> rintro rfl
  · exact step_of_regRead_no_draw (r := .cmd) h (.inl (by decide))
  · exact step_of_regRead_no_draw (r := .arg0) h (.inl (by decide))
  · exact step_of_regRead_no_draw (r := .arg1) h (.inl (by decide))
  · exact step_of_regRead_no_draw (r := .arg2) h (.inl (by decide))
  · exact step_of_regRead_no_draw (r := .arg3) h (.inl (by decide))
  · exact step_of_regRead_no_draw (r := .arg4) h (.inl (by decide))
  · intro hb
    rw [step_of_regRead_no_draw (r := .status) h (.inr hb), State.readReg_status_of_not_busy hb]

/-- Settles O38, register by register. -/
theorem argWritesStoreWholeWord : Obligations.ArgWritesStoreWholeWord := by
  unfold Obligations.ArgWritesStoreWholeWord
  intro s off v rest h hb
  refine ⟨?_, ?_, ?_, ?_, ?_⟩ <;> rintro rfl
  · exact step_of_regWrite (r := .arg0) h hb
  · exact step_of_regWrite (r := .arg1) h hb
  · exact step_of_regWrite (r := .arg2) h hb
  · exact step_of_regWrite (r := .arg3) h hb
  · exact step_of_regWrite (r := .arg4) h hb

/-- Settles O39: an odd access names no register, and every other one names the register at its offset. -/
theorem oddRegisterAccessRefused : Obligations.OddRegisterAccessRefused := by
  unfold Obligations.OddRegisterAccessRefused
  refine ⟨fun s addr width v rest hodd => ?_, fun s off rest h haligned hoff => ?_,
    fun s off v rest h haligned hoff hb => ?_⟩
  · have hnone := regAccessed_eq_none hodd
    refine ⟨fun h => ?_, fun h => ?_⟩
    · rw [step_of_action h, externalEvent, hostRegWrite, State.afterAction_platform, hnone]
    · rw [step_of_action h, externalEvent, hostRegRead, State.afterAction_platform, hnone]
  · obtain ⟨r, rfl⟩ := exists_reg_of_offset haligned hoff
    refine ⟨r, s.readReg r, ?_⟩
    simp only [step_of_regRead h, offset_eq_status_iff]
    rfl
  · obtain ⟨r, rfl⟩ := exists_reg_of_offset haligned hoff
    refine ⟨_, step_of_regWrite h hb, State.writeReg_frame _ r v, fun hne => ?_, fun hne => ?_⟩
    · rcases State.writeReg_running (s.afterAction rest) r v with ⟨rfl, -⟩ | hrun
      · exact absurd rfl hne
      · exact hrun
    · exact (State.writeReg_args (s.afterAction rest) r v).resolve_right hne

/-- Settles O42: POLL's one read of STATUS, by BUSY. -/
theorem pollWaitsForBusyZero : Obligations.PollWaitsForBusyZero := by
  unfold Obligations.PollWaitsForBusyZero
  refine fun s rest h => ⟨step_of_poll_idle h, fun hb => ⟨_, _, step_of_poll_busy h hb, rfl, rfl, ?_, rfl⟩⟩
  rw [State.afterAction_readReg, State.readReg_status_of_busy hb]
  exact (busyStatus_fields s.draws).1

end Sys2Proof.Machine
end

section
/-! Accesses to host memory (spec/20_memory.md sections 3 and 5, spec/70_reset_and_hazards.md): the bytes that a
command may not access, what it reads, HOST's own accesses, and the output of a command that power-on reset cuts
short. The obligations of this family stand at the end. -/

namespace Sys2Proof.Machine

/-! ### What a command accesses (R64, R68) -/

/-- A command whose ranges are representable, and that FIN or COR does not stop, accesses them all, and nothing else.
-/
theorem exec_accesses {i : Instr} {s : State}
    (hrep : ∀ g ∈ readRanges i s.operands ++ writeRanges i s.operands, g.representable s.platform = true)
    (hfin : i = .input → s.engine.fin = false) (hcor : i = .result → s.engine.cor = false) :
    ∃ t, exec i s = s.accessing (readRanges i s.operands ++ writeRanges i s.operands) (.next t) := by
  cases i with
  | reset => exact ⟨_, rfl⟩
  | input => exact ⟨_, execInput_accesses (hrep _ (by simp [readRanges])) (hfin rfl)⟩
  | result => exact ⟨_, execResult_accesses (hrep _ (by simp [writeRanges])) (hcor rfl)⟩
  | hmac =>
    exact ⟨_, execHmac_accesses (hrep _ (by simp [readRanges])) (hrep _ (by simp [readRanges]))
      (hrep _ (by simp [writeRanges]))⟩

theorem memOrdinary_of_sideEffects {p : Platform} {a : Nat} (h : regionKindAt a p.regions = some .sideEffects) :
    memOrdinary p a = false := by simp [memOrdinary, h]

/-! ### Noninterference in memory (R78) -/

/-- The states differ at most in memory and, if ERR is OK, hold the same bytes in these ranges. -/
def State.SameButMemory (ranges : List Range) (t u : State) : Prop :=
  u = { t with mem := u.mem } ∧ (t.err = 0x00 → ∀ g ∈ ranges, u.mem.readRange g = t.mem.readRange g)

section Noninterference
variable {s : State} {m : Memory}

theorem State.finish_sameButMemory {e : Err} (he : e ≠ .ok) (ranges : List Range) :
    State.SameButMemory ranges (s.finish e) (({ s with mem := m } : State).finish e) :=
  ⟨rfl, fun hok => absurd hok (errCode_ne_ok he)⟩

theorem State.leaveDatapath_withMem (n : Nat) :
    ({ s with mem := m } : State).leaveDatapath n = { s.leaveDatapath n with mem := m } := by
  unfold State.leaveDatapath
  split <;> rfl

/-- R78: INPUT's effect on everything but memory depends on memory by the bytes of its range only. -/
theorem State.afterInput_withMem (hread : m.readRange s.operands.inputRange = s.mem.readRange s.operands.inputRange) :
    ({ s with mem := m } : State).afterInput = { s.afterInput with mem := m } := by
  have hops : ({ s with mem := m } : State).operands = s.operands := rfl
  rw [State.afterInput, hops, hread]
  exact congrArg (State.finish · .ok) (State.leaveDatapath_withMem
    (s := { s with engine := s.engine.absorb (s.mem.readRange s.operands.inputRange) }) _)

/-- R78: RESULT's effect on everything but memory does not depend on memory. -/
theorem State.afterResult_withMem : ({ s with mem := m } : State).afterResult
    = { s.afterResult with mem := ({ s with mem := m } : State).afterResult.mem } := by
  rw [State.afterResult_mem]
  exact congrArg (State.finish · .ok) (State.leaveDatapath_withMem
    (s := { s with
      engine := s.engine.forResult
      mem := s.mem.writeBytes s.operands.resultRange.base (serialise s.engine.forResult.h) }) _)

/-- R78: HMAC's effect on everything but memory does not depend on memory. -/
theorem State.afterHmac_withMem : ({ s with mem := m } : State).afterHmac
    = { s.afterHmac with mem := ({ s with mem := m } : State).afterHmac.mem } := by
  rw [State.afterHmac_mem, State.afterHmac, State.afterHmac]
  generalize hmacSha512 (m.readRange _) (m.readRange _) = code'
  generalize hmacSha512 (s.mem.readRange _) (s.mem.readRange _) = code
  rfl

theorem execInput_sameButMemory
    (hread : m.readRange s.operands.inputRange = s.mem.readRange s.operands.inputRange) :
    OutcomesRelated (State.SameButMemory []) (execInput s) (execInput { s with mem := m }) := by
  cases hr : s.operands.inputRange.representable s.platform with
  | false =>
    rw [execInput_of_wraps hr, execInput_of_wraps (s := { s with mem := m }) hr]
    exact State.finish_sameButMemory (by decide) []
  | true =>
    cases hf : s.engine.fin with
    | true =>
      rw [execInput_of_fin hr hf, execInput_of_fin (s := { s with mem := m }) hr hf]
      exact State.finish_sameButMemory (s := { s with engine := { s.engine with cor := true } }) (by decide) []
    | false =>
      rw [execInput_accesses hr hf, execInput_accesses (s := { s with mem := m }) hr hf,
        State.afterInput_withMem hread]
      exact OutcomesRelated.accessing (OutcomesRelated.next ⟨rfl, fun _ g hg => absurd hg List.not_mem_nil⟩) s _

theorem execResult_sameButMemory (hwf : s.mem.wf = true) (hwf' : m.wf = true) :
    OutcomesRelated (State.SameButMemory [s.operands.resultRange]) (execResult s) (execResult { s with mem := m }) := by
  cases hr : s.operands.resultRange.representable s.platform with
  | false =>
    rw [execResult_of_wraps hr, execResult_of_wraps (s := { s with mem := m }) hr]
    exact State.finish_sameButMemory (by decide) _
  | true =>
    cases hc : s.engine.cor with
    | true =>
      rw [execResult_of_cor hr hc, execResult_of_cor (s := { s with mem := m }) hr hc]
      exact State.finish_sameButMemory (by decide) _
    | false =>
      rw [execResult_accesses hr hc, execResult_accesses (s := { s with mem := m }) hr hc]
      refine OutcomesRelated.accessing (OutcomesRelated.next ⟨State.afterResult_withMem, fun _ g hg => ?_⟩) s _
      obtain rfl := List.mem_singleton.mp hg
      exact (State.afterResult_digest (s := { s with mem := m }) hwf').trans (State.afterResult_digest hwf).symm

theorem execHmac_sameButMemory (hwf : s.mem.wf = true) (hwf' : m.wf = true)
    (hmsg : m.readRange s.operands.messageRange = s.mem.readRange s.operands.messageRange)
    (hkey : m.readRange s.operands.keyRange = s.mem.readRange s.operands.keyRange) :
    OutcomesRelated (State.SameButMemory [s.operands.hmacRange]) (execHmac s) (execHmac { s with mem := m }) := by
  by_cases hw : s.operands.messageRange.representable s.platform = false
      ∨ s.operands.keyRange.representable s.platform = false
      ∨ s.operands.hmacRange.representable s.platform = false
  · rw [execHmac_of_wraps hw, execHmac_of_wraps (s := { s with mem := m }) hw]
    exact State.finish_sameButMemory (by decide) _
  · simp only [not_or, Bool.not_eq_false] at hw
    obtain ⟨hm, hk, ho⟩ := hw
    rw [execHmac_accesses hm hk ho, execHmac_accesses (s := { s with mem := m }) hm hk ho]
    refine OutcomesRelated.accessing (OutcomesRelated.next ⟨State.afterHmac_withMem, fun _ g hg => ?_⟩) s _
    obtain rfl := List.mem_singleton.mp hg
    have hcode := State.afterHmac_code (s := { s with mem := m }) hwf'
    calc ({ s with mem := m } : State).afterHmac.mem.readRange s.operands.hmacRange
        = hmacSha512 (m.readRange s.operands.keyRange) (m.readRange s.operands.messageRange) := hcode
      _ = hmacSha512 (s.mem.readRange s.operands.keyRange) (s.mem.readRange s.operands.messageRange) := by
          rw [hmsg, hkey]
      _ = s.afterHmac.mem.readRange s.operands.hmacRange := (State.afterHmac_code hwf).symm

end Noninterference

/-! ### HOST's accesses (R68, R72, R301) -/

theorem State.hostAccess_of_ordinary {s : State} {a : Nat} (ha : a < 2 ^ s.platform.addrWidth)
    (ho : memOrdinary s.platform a = true) (k : StepResult) : s.hostAccess a k = k := by
  rw [State.hostAccess, if_pos ha]
  refine State.accessing_of_reaches fun g hg => ?_
  obtain rfl := List.mem_singleton.mp hg
  refine memOrdinaryFrom_iff.mpr fun i hi => ?_
  obtain rfl : i = 0 := Nat.lt_one_iff.mp hi
  exact ho

theorem any_holds_iff {ranges : List Range} {a : Nat} :
    ranges.any (fun r => r.holds a) = true ↔ ∃ g ∈ ranges, g.base ≤ a ∧ a < g.base + g.len := by
  simp only [List.any_eq_true, Range.holds_iff]

theorem any_holds_eq_false {ranges : List Range} {a : Nat}
    (h : ∀ g ∈ ranges, a < g.base ∨ g.base + g.len ≤ a) : ranges.any (fun r => r.holds a) = false := by
  refine Bool.eq_false_iff.mpr fun hany => ?_
  obtain ⟨g, hg, hbase, hend⟩ := any_holds_iff.mp hany
  have hout := h g hg
  omega

section HostAccess
variable {s : State} {a : Nat} {rest : List ExternalEvent}

theorem step_of_memWrite_used {b : Byte} (h : s.actsNow (.memWrite a b) rest) (ha : a < 2 ^ s.platform.addrWidth)
    (ho : memOrdinary s.platform a = true)
    (hused : (s.runningReads ++ s.runningWrites).any (fun r => r.holds a) = true) :
    step s = .fault .busyMemoryWrite := by
  rw [step_of_action h, externalEvent, hostMemWrite, State.hostAccess_of_ordinary (s := s.afterAction rest) ha ho,
    State.afterAction_runningReads, State.afterAction_runningWrites, if_pos hused]

theorem step_of_memWrite_free {b : Byte} (h : s.actsNow (.memWrite a b) rest) (ha : a < 2 ^ s.platform.addrWidth)
    (ho : memOrdinary s.platform a = true)
    (hfree : (s.runningReads ++ s.runningWrites).any (fun r => r.holds a) = false) :
    step s = .next { s.afterAction rest with mem := s.mem.write a b } := by
  rw [step_of_action h, externalEvent, hostMemWrite, State.hostAccess_of_ordinary (s := s.afterAction rest) ha ho,
    State.afterAction_runningReads, State.afterAction_runningWrites, if_neg (by simp [hfree])]
  rfl

theorem step_of_memRead_output (h : s.actsNow (.memRead a) rest) (ha : a < 2 ^ s.platform.addrWidth)
    (ho : memOrdinary s.platform a = true) (hused : s.runningWrites.any (fun r => r.holds a) = true) :
    step s = .next { s.afterAction rest with
      observed := .mem a (Config.freeByte s.draws 0) :: s.observed, draws := s.draws + 1 } := by
  rw [step_of_action h, externalEvent, hostMemRead, State.hostAccess_of_ordinary (s := s.afterAction rest) ha ho,
    State.afterAction_runningWrites, if_pos hused]
  rfl

theorem step_of_memRead_free (h : s.actsNow (.memRead a) rest) (ha : a < 2 ^ s.platform.addrWidth)
    (ho : memOrdinary s.platform a = true) (hfree : s.runningWrites.any (fun r => r.holds a) = false) :
    step s = .next { s.afterAction rest with observed := .mem a (s.mem.read a) :: s.observed } := by
  rw [step_of_action h, externalEvent, hostMemRead, State.hostAccess_of_ordinary (s := s.afterAction rest) ha ho,
    State.afterAction_runningWrites, if_neg (by simp [hfree])]
  rfl

end HostAccess

/-- R301: with no command running, or an illegal word, no byte of memory is in use. -/
theorem State.running_ranges_of_no_command {s : State}
    (h : s.running = none ∨ ∃ r why, s.running = some r ∧ decode r.word = .illegal why) :
    s.runningReads = [] ∧ s.runningWrites = [] := by
  rcases h with hr | ⟨r, why, hr, hd⟩
  · simp [State.runningReads, State.runningWrites, hr]
  · simp [State.runningReads, State.runningWrites, hr, hd]

/-- R301: the ranges in use are those of the accepted command. -/
theorem State.running_ranges_of_instr {s : State} {r : Running} {i : Instr} (hr : s.running = some r)
    (hd : decode r.word = .instr i) :
    s.runningReads = readRanges i r.ops ∧ s.runningWrites = writeRanges i r.ops := by
  simp [State.runningReads, State.runningWrites, hr, hd]

/-! ### The output of a command cut short (assumption 13) -/

theorem State.landing_of_no_writes {s : State} (h : s.runningWrites = []) : s.landing = [] :=
  List.eq_nil_iff_forall_not_mem.mpr fun g hg => by simpa [h] using (State.mem_landing hg).1

/-- A command that reports OK after HOST's action is taken up reports OK before it too: it looks at no action and no
turn. -/
theorem exec_ok_of_afterAction {i : Instr} {s t : State} {rest : List ExternalEvent}
    (h : exec i (s.afterAction rest) = .next t) (hok : t.err = 0x00) : ∃ u, exec i s = .next u ∧ u.err = 0x00 := by
  rcases exec_next h with ⟨e, hne, rfl⟩ | ⟨-, -, rfl⟩ | ⟨rfl, -⟩ | ⟨rfl, hruns, -⟩ | ⟨rfl, hruns, -⟩ | ⟨rfl, hruns, -⟩
  · exact absurd hok (errCode_ne_ok hne)
  · exact absurd hok (errCode_ne_ok (e := .alreadyFinalized) (by decide))
  · exact ⟨_, execReset_eq s, rfl⟩
  · exact ⟨_, execInput_of_runs (s := s) hruns, rfl⟩
  · exact ⟨_, execResult_of_runs (s := s) hruns, rfl⟩
  · exact ⟨_, execHmac_of_runs (s := s) hruns, rfl⟩

/-! ### The obligations -/

/-- Settles O17: each command accesses its ranges, and a byte that is not admitted stops the access. -/
theorem unadmittedAccessFaults : Obligations.UnadmittedAccessFaults := by
  unfold Obligations.UnadmittedAccessFaults
  refine ⟨fun s k hrep hf hk hout => ?_, fun s k hrep hc hk hout => ?_, fun s g k hm hkey ho hg hk hout => ?_⟩
  · exact (execInput_accesses hrep hf).trans
      (State.accessing_of_not_admitted (r := s.operands.inputRange) (List.mem_singleton_self _) hk hout)
  · exact (execResult_accesses hrep hc).trans
      (State.accessing_of_not_admitted (r := s.operands.resultRange) (List.mem_singleton_self _) hk hout)
  · exact (execHmac_accesses hm hkey ho).trans (State.accessing_of_not_admitted hg hk hout)

/-- Settles O18: each command accesses its ranges, and a byte with side effects among admitted ones stops the access.
-/
theorem sideEffectMemoryRefused : Obligations.SideEffectMemoryRefused := by
  unfold Obligations.SideEffectMemoryRefused
  rintro i s hrep hfin hcor hadmit ⟨g, hg, k, hk, hside⟩
  obtain ⟨t, ht⟩ := exec_accesses hrep hfin hcor
  rw [ht]
  exact State.accessing_of_sideEffects hadmit hg hk (memOrdinary_of_sideEffects hside)

/-- Settles O49: a command reads its input ranges only, and what it writes does not depend on the memory it writes to.
-/
theorem commandsReadOnlyTheirOperands : Obligations.CommandsReadOnlyTheirOperands := by
  unfold Obligations.CommandsReadOnlyTheirOperands
  intro i s m hwf hwf' hagree
  have hread : ∀ g ∈ readRanges i s.operands, m.readRange g = s.mem.readRange g :=
    fun g hg => Memory.readBytes_congr (hagree g hg)
  cases i with
  | reset => exact ⟨rfl, fun _ g hg => absurd hg List.not_mem_nil⟩
  | input => exact execInput_sameButMemory (hread _ (by simp [readRanges]))
  | result => exact execResult_sameButMemory hwf hwf'
  | hmac => exact execHmac_sameButMemory hwf hwf' (hread _ (by simp [readRanges])) (hread _ (by simp [readRanges]))

/-- Settles O41, by whether the byte lies in a range that the running command uses. -/
theorem busyMemoryHazards : Obligations.BusyMemoryHazards := by
  unfold Obligations.BusyMemoryHazards
  refine ⟨fun s a rest hnone ha ho => ?_, fun s r i a rest hr hd ha ho => ?_⟩
  · obtain ⟨hreads, hwrites⟩ := State.running_ranges_of_no_command hnone
    refine ⟨fun b h => ⟨_, step_of_memWrite_free h ha ho (by rw [hreads, hwrites]; rfl), rfl,
      fun hwf => Memory.read_write_same hwf a b, fun k hk => Memory.read_write_other _ b hk⟩,
      fun h => step_of_memRead_free h ha ho (by rw [hwrites]; rfl)⟩
  · obtain ⟨hreads, hwrites⟩ := State.running_ranges_of_instr hr hd
    rw [← hreads, ← hwrites]
    exact ⟨fun hin b h => step_of_memWrite_used h ha ho (any_holds_iff.mpr hin),
      fun hin h => ⟨_, step_of_memRead_output h ha ho (any_holds_iff.mpr hin)⟩,
      fun hout b h => step_of_memWrite_free h ha ho (any_holds_eq_false hout),
      fun hout h => step_of_memRead_free h ha ho (any_holds_eq_false hout)⟩

/-- Settles O5: the reset frees only bytes of the landing ranges, which are the running command's, and none if it
would not report OK. -/
theorem powerOnResetCutsCommandShort : Obligations.PowerOnResetCutsCommandShort := by
  unfold Obligations.PowerOnResetCutsCommandShort
  intro s rest h
  have hmem : (s.afterAction rest).landing = [] →
      cutShort s.platform s.draws s.mem (s.afterAction rest).landing = s.mem := fun hnone => by
    rw [hnone]
    rfl
  refine ⟨_, step_of_powerOnReset h, rfl, rfl, rfl, rfl, fun a hout => ?_,
    fun hnone => hmem (State.landing_of_no_writes hnone), fun r i hr hd herr => hmem ?_⟩
  · exact cutShort_read_outside fun g hg => hout g (State.mem_landing hg).1
  · refine State.landing_of_no_effect (s := s.afterAction rest) hr hd fun t ht hok => ?_
    obtain ⟨u, hu, huok⟩ := exec_ok_of_afterAction ht hok
    exact herr u hu huok

end Sys2Proof.Machine
end

section
/-! Whole messages (spec/40_engine.md, spec/30_encoding.md section 4): what INPUT and the first RESULT do to the
engine, the one-shot hash, and HOST's program for HASH, line by line. The obligations of this family stand at the end.
-/

namespace Sys2Proof.Machine

/-! ### Runs of steps (R247) -/

theorem Runs.single {s t : State} (h : step s = .next t) : Runs 1 s t := .head h (.refl t)

theorem Runs.trans {m n : Nat} {s t u : State} (h : Runs m s t) (h' : Runs n t u) : Runs (m + n) s u := by
  induction h with
  | refl s => rwa [Nat.zero_add]
  | head first _ ih =>
    rw [Nat.succ_add]
    exact .head first (ih h')

/-! ### HOST programs (R97, assumption 3) -/

/-- HOST is about to run a program on the platform `p`: no command runs, no turns are scheduled, and HOST's next
actions are the program's lines. -/
structure State.Programmed (s : State) (p : Platform) (program : List ExternalEvent) : Prop where
  sound    : s.engine.sound = true
  idle     : s.running = none
  turns    : s.turns = []
  platform : s.platform = p
  events   : s.events = program

theorem statusWord_reset : statusWord false false false 0#8 = 0#64 := by decide

theorem statusWord_finalized : statusWord false true false 0#8 = 2#64 := by decide

section Programmed
variable {s : State} {p : Platform} {rest : List ExternalEvent}

theorem State.Programmed.actsNow {e : ExternalEvent} (h : s.Programmed p (e :: rest)) : s.actsNow e rest :=
  ⟨h.sound, by rw [State.nextAgent, h.turns, h.idle]; rfl, h.events⟩

theorem State.Programmed.not_busy {program : List ExternalEvent} (h : s.Programmed p program) : s.busy = false :=
  State.busy_of_running_none h.idle

/-- The line `WR r, v` takes one step. -/
theorem State.Programmed.step_wrLine {r : Reg} {v : Word} (h : s.Programmed p (wrLine p r v :: rest)) :
    step s = .next ((s.afterAction rest).writeReg r v) := by
  obtain rfl := h.platform
  exact step_of_regWrite h.actsNow h.not_busy

/-- The line `WR r, v` of an operand register leaves HOST with the program's later lines. -/
theorem State.Programmed.writeReg {r : Reg} {v : Word} (h : s.Programmed p (wrLine p r v :: rest)) (hr : r ≠ .cmd) :
    ((s.afterAction rest).writeReg r v).Programmed p rest where
  sound := by rw [State.writeReg_engine]; exact h.sound
  idle := by
    rcases State.writeReg_running (s.afterAction rest) r v with ⟨hcmd, -⟩ | hrun
    · exact absurd hcmd hr
    · exact hrun.trans h.idle
  turns := by rw [State.writeReg_turns, State.afterAction_turns, h.turns]; rfl
  platform := by rw [State.writeReg_platform]; exact h.platform
  events := by rw [State.writeReg_events, State.afterAction_events]

/-- The state in which HOST has written the command word `w`, with the lines `rest` to come, and CORE's turn is taken
up. -/
def State.issuing (s : State) (w : Word) (rest : List ExternalEvent) : State :=
  ((s.afterAction rest).writeReg .cmd w).takeTurn

@[simp] theorem State.issuing_engine (w : Word) : (s.issuing w rest).engine = s.engine := rfl

/-- The lines `WR CMD, w` and `POLL` take three steps: HOST's write, the command's run by CORE, and the read of
STATUS. -/
theorem State.Programmed.command {w : Word} {i : Instr} {u : State}
    (h : s.Programmed p (wrLine p .cmd w :: .poll :: rest)) (hd : decode w = .instr i)
    (hx : exec i (s.issuing w (.poll :: rest)) = .next u) :
    ∃ t, Runs 3 s t ∧ t.Programmed p rest ∧ t.engine = u.engine ∧ t.mem = u.mem
      ∧ t.observed = .reg .status (statusWord false u.engine.fin u.engine.cor u.err) :: s.observed := by
  have haccept := h.step_wrLine
  have hturns : ((s.afterAction (.poll :: rest)).writeReg .cmd w).turns = [] := congrArg List.tail h.turns
  have hnext : ((s.afterAction (.poll :: rest)).writeReg .cmd w).nextAgent = .core := by
    rw [State.nextAgent, hturns]
    rfl
  have hrun := (step_of_instr (s := (s.afterAction (.poll :: rest)).writeReg .cmd w)
    (r := { word := w, ops := s.args }) h.sound hnext rfl hd).trans hx
  obtain ⟨-, hplatform, hevents, huturns, hobserved⟩ := exec_next_sameOutside hx
  have hu : u.Programmed p (.poll :: rest) :=
    ⟨step_next_sound hrun, exec_next_running hx, huturns.trans (congrArg List.tail hturns), hplatform.trans h.platform,
      hevents⟩
  have hpoll := step_of_poll_idle hu.actsNow hu.not_busy
  refine ⟨_, .head haccept (.head hrun (.single hpoll)),
    ⟨hu.sound, hu.idle, congrArg List.tail hu.turns, hu.platform, rfl⟩, rfl, rfl, ?_⟩
  exact congrArg _ hobserved

/-- R98: the program RESET. -/
theorem State.Programmed.reset (h : s.Programmed p (expandReset p ++ rest)) :
    ∃ t, Runs 3 s t ∧ t.Programmed p rest ∧ t.engine = Engine.init ∧ t.mem = s.mem
      ∧ t.observed = .reg .status 0x0 :: s.observed := by
  obtain ⟨t, hruns, ht, hengine, hmem, hobserved⟩ :=
    State.Programmed.command h (decode_encode_eq .reset) (execReset_eq _)
  exact ⟨t, hruns, ht, hengine, hmem,
    hobserved.trans (congrArg (Observation.reg .status · :: s.observed) statusWord_reset)⟩

/-- R98: the program INPUT, on a reachable chunk with FIN = 0 and COR = 0. -/
theorem State.Programmed.input {src len : Word} (h : s.Programmed p (expandInput p src len ++ rest))
    (hf : s.engine.fin = false) (hc : s.engine.cor = false) (hrep : (rangeOf src len).representable s.platform = true)
    (hreach : s.reaches (rangeOf src len) = true) :
    ∃ t, Runs 5 s t ∧ t.Programmed p rest ∧ t.engine = s.engine.absorb (s.mem.readRange (rangeOf src len))
      ∧ t.mem = s.mem ∧ t.observed = .reg .status 0x0 :: s.observed := by
  have h₁ := State.Programmed.writeReg h (by decide)
  have h₂ := State.Programmed.writeReg h₁ (by decide)
  obtain ⟨t, hruns, ht, hengine, hmem, hobserved⟩ :=
    State.Programmed.command h₂ (decode_encode_eq .input) (execInput_of_runs ⟨hrep, hf, hreach⟩)
  refine ⟨t, .head h.step_wrLine (.head h₁.step_wrLine hruns), ht, hengine.trans (State.afterInput_engine _),
    hmem.trans (State.afterInput_mem _), hobserved.trans ?_⟩
  simp [hf, hc, statusWord_reset]

/-- R98: the program RESULT, on a reachable output with COR = 0. -/
theorem State.Programmed.result {dst : Word} (h : s.Programmed p (expandResult p dst ++ rest))
    (hm : s.mem.wf = true) (hc : s.engine.cor = false) (hrep : (outRange dst).representable s.platform = true)
    (hreach : s.reaches (outRange dst) = true) :
    ∃ t, Runs 4 s t ∧ t.Programmed p rest ∧ t.mem.readBytes dst.toNat 64 = serialise s.engine.forResult.h
      ∧ s.SameMemoryOutside t (outRange dst) ∧ t.observed = .reg .status 0x2 :: s.observed := by
  have h₁ := State.Programmed.writeReg h (by decide)
  obtain ⟨t, hruns, ht, -, hmem, hobserved⟩ :=
    State.Programmed.command h₁ (decode_encode_eq .result) (execResult_of_runs ⟨hrep, hc, hreach⟩)
  refine ⟨t, .head h.step_wrLine hruns, ht, ?_, fun a ha => ?_, hobserved.trans ?_⟩
  · rw [hmem]
    exact State.afterResult_digest hm
  · rw [hmem]
    exact State.afterResult_sameMemoryOutside _ a ha
  · simp [hc, statusWord_finalized]

end Programmed

/-! ### The obligations -/

/-- Settles O13: INPUT leaves memory, and its engine has absorbed the bytes of its range. -/
theorem inputAbsorbsWholeBlocks : Obligations.InputAbsorbsWholeBlocks := by
  unfold Obligations.InputAbsorbsWholeBlocks
  intro s hs hruns
  obtain ⟨hb, -⟩ := (Engine.sound_iff _).mp hs
  obtain ⟨hh, hblen, hbuffered, htotal⟩ :=
    Engine.absorb_blocks s.engine (s.mem.readRange s.operands.inputRange) hb
  have hlen : (s.engine.buffered ++ s.mem.readRange s.operands.inputRange).length
      = s.engine.blen + s.operands.arg1.toNat := by
    rw [List.length_append, Engine.length_buffered hb, Memory.length_readRange]
    rfl
  rw [hlen] at hh hblen hbuffered htotal
  refine ⟨s.afterInput, execInput_of_runs hruns, ⟨?_, ?_, ?_, ?_⟩, ?_, ?_, rfl, rfl, fun a => ?_,
    s.afterInput_args, s.afterInput_platform, s.afterInput_events, s.afterInput_turns, s.afterInput_observed⟩
  · rw [State.afterInput_engine, compress_take]
    exact hh
  · rw [State.afterInput_engine]
    exact hblen
  · rw [State.afterInput_engine]
    exact hbuffered
  · rw [State.afterInput_engine]
    exact htotal
  · rw [State.afterInput_engine, Engine.absorb_fin]
  · rw [State.afterInput_engine, Engine.absorb_cor]
  · rw [State.afterInput_mem]

/-- Settles O19: the first RESULT finalizes the engine, whose padded tail is P. -/
theorem resultFinalizesAndWrites : Obligations.ResultFinalizesAndWrites := by
  unfold Obligations.ResultFinalizesAndWrites
  intro s hs hm hruns hf
  obtain ⟨hb, -⟩ := (Engine.sound_iff _).mp hs
  have ⟨_, hcor, _⟩ := hruns
  have hengine : s.afterResult.engine = s.engine.finalize := by
    rw [State.afterResult_engine, Engine.forResult, hf, if_neg Bool.false_ne_true]
  have hlen := Engine.length_padded hb
  refine ⟨s.afterResult, execResult_of_runs hruns, ?_, ?_, ?_, ?_, ?_, ?_, s.afterResult_sameMemoryOutside, rfl, rfl,
    s.afterResult_sameOutside⟩
  · rw [hengine, Engine.finalize_buf hb]
    exact ⟨List.take_left' hlen, List.drop_left' hlen, rfl⟩
  · rw [hengine, Engine.finalize_blen]
  · rw [hengine, Engine.finalize_total]
  · rw [hengine, Engine.finalize_fin]
  · rw [hengine, Engine.finalize_cor, hcor]
  · rw [State.afterResult_digest hm, State.afterResult_engine]

/-- Settles O27: the whole blocks of the padded message are compressed as they are absorbed, and the final blocks by
finalizing. -/
theorem oneShotHashIsMessageDigest : Obligations.OneShotHashIsMessageDigest := by
  unfold Obligations.OneShotHashIsMessageDigest
  exact sha512_eq_messageDigest

/-- Settles O29: RESET, INPUT and RESULT take three, five and four steps, and the digest is that of the bytes
absorbed. -/
theorem hashPseudoInstructionWritesDigest : Obligations.HashPseudoInstructionWritesDigest := by
  unfold Obligations.HashPseudoInstructionWritesDigest
  intro s src len dst rest hs hm hidle hturns hevents hchunks hrep hreach
  rw [State.chunksReachable, List.all_cons, Bool.and_eq_true, Bool.and_eq_true] at hchunks
  obtain ⟨⟨hrepin, hreachin⟩, -⟩ := hchunks
  have h : s.Programmed s.platform (expandReset s.platform
      ++ (expandInput s.platform src len ++ (expandResult s.platform dst ++ rest))) :=
    ⟨hs, hidle, hturns, rfl, by simpa [Pseudo.expand] using hevents⟩
  obtain ⟨s₁, hruns₁, h₁, hengine₁, hmem₁, hobserved₁⟩ := h.reset
  obtain ⟨s₂, hruns₂, h₂, hengine₂, hmem₂, hobserved₂⟩ := h₁.input (by rw [hengine₁]; rfl) (by rw [hengine₁]; rfl)
    (by rwa [h₁.platform]) (by rwa [State.reaches, h₁.platform])
  obtain ⟨t, hruns, ht, hdigest, houtside, hobserved⟩ := h₂.result (by rwa [hmem₂, hmem₁])
    (by rw [hengine₂, hengine₁, Engine.absorb_cor]; rfl) (by rwa [h₂.platform]) (by rwa [State.reaches, h₂.platform])
  have hfin : s₂.engine.fin = false := by rw [hengine₂, hengine₁, Engine.absorb_fin]; rfl
  refine ⟨t, (hruns₁.trans hruns₂).trans hruns, ht.events, ht.idle, ?_, fun a ha => ?_, ?_⟩
  · rw [hdigest, Engine.forResult, hfin, hengine₂, hengine₁, hmem₁, ← sha512_eq_messageDigest]
    rfl
  · rw [houtside a ha, hmem₂, hmem₁]
  · rw [hobserved, hobserved₂, hobserved₁]
    rfl

end Sys2Proof.Machine
end
